-- ==== Sys2Proof/Word.lean ====
section
/-! DEFINITION. The widths the spec gives its values (R14): every value is a bit vector of a stated width. -/

namespace Sys2Proof

/-- A 64-bit value: `STATE`, an operand port, a result port (R20, R50, R51). -/
abbrev Word := BitVec 64

/-- A 32-bit value: an `i32` operand or result, an `f32` pattern (R14, R53). -/
abbrev W32 := BitVec 32

/-- A 16-bit value: an `i16` operand (R53). -/
abbrev W16 := BitVec 16

/-- The `N` field of a command word (R52). -/
abbrev BitCount := BitVec 6

/-- A command word `CMD` (R50). -/
abbrev CmdWord := BitVec 16

end Sys2Proof
end

