-- ==== Sys2Proof/Machine/Operands.lean ====
section
/-! DEFINITION. Width changes (R16) and the assembly of narrow results (R55). The narrow operands of R54 are cut
from their ports by the decoder (`low32`, `low16`). -/

namespace Sys2Proof.Machine

/-- `sext_32` (R16). -/
def sext32 (v : W32) : Word := v.signExtend 64

/-- `sext_16` (R16). -/
def sext16 (v : W16) : Word := v.signExtend 64

/-- `zext_32` (R16). -/
def zext32 (v : W32) : Word := v.setWidth 64

/-- `trunc_32` (R16). -/
def trunc32 (v : Word) : W32 := v.setWidth 32

/-- An `i32` result on `RES0` (R55). -/
def i32Result (r : W32) : Word := sext32 r

/-- An `f32` pattern on `RES0` (R55). -/
def f32Result (p : W32) : Word := zext32 p

end Sys2Proof.Machine
end

