-- ==== Sys2Proof/Machine/Flags.lean ====
section
/-! DEFINITION. The block has no flags or condition codes (R29); this file holds the conditions the commands'
pseudocode tests (R91, R97, R123, R124). -/

namespace Sys2Proof.Machine

/-- Not (`n = 0` or `n > hi`): the range check of NEXTB (`hi = 32`, R91) and STEP (`hi = 48`, R97). -/
def bitsInRange (hi : Nat) (n : BitCount) : Bool :=
  n.toNat != 0 && decide (n.toNat ≤ hi)

/-- Not `signed_32(bound) <= 0` (R123, R124). -/
def boundPositive (bound : W32) : Bool :=
  decide (0 < bound.toInt)

/-- Not `bound & (bound −32 1) != 0` (R123). -/
def boundPowerOfTwo (bound : W32) : Bool :=
  bound &&& (bound - 1) == 0

/-- `t <- (bits −32 val) +32 (bound −32 1)` (R124), wrapping at 32 bits (R125). -/
def drawTest (bits val bound : W32) : W32 :=
  (bits - val) + (bound - 1)

/-- `signed_32(t) >= 0` (R124). -/
def drawAccepted (bits val bound : W32) : Bool :=
  decide (0 ≤ (drawTest bits val bound).toInt)

end Sys2Proof.Machine
end

