-- ==== Sys2Proof/Machine/Constants.lean ====
section
/-! DEFINITION. The hardwired constants (R10, R17, R26, R103). -/

namespace Sys2Proof.Machine

/-- The canonical multiplier, which is also the scramble constant (R17, R26). -/
def MULT : Word := 0x00000005DEECE66D

/-- The canonical increment (R17). -/
def ADD : Word := 0x000000000000000B

/-- The canonical mask, `2^48 − 1` (R17). -/
def MASK48 : Word := 0x0000FFFFFFFFFFFF

/-- The modular inverse of `MULT` modulo `2^48` (R66, R103). The block does not hold it: a caller supplies it. -/
def MULT_INVERSE : Word := 0x0000DFE05BCB1365

end Sys2Proof.Machine
end

