-- ==== Sys2Proof/Config.lean ====
section
/-! DEFINITION. What an implementation fixes (R11, R12) and the one free value of the model. -/

namespace Sys2Proof

/-- The kind of right shift STEP uses on a new state whose bit 63 is 1 (R11, R98). -/
inductive ShiftKind where
  | arithmetic
  | logical
  deriving DecidableEq, Repr

/-- The two implementation parameters of the spec, fixed when the block is built (R11, R12, R30).
DESIGN CHOICE (log entry 6): they ride in `State.params`, which no step writes, so a statement about
every state is a statement about every block the spec admits. -/
structure Params where
  shiftKind : ShiftKind
  hasDraws  : Bool
  deriving DecidableEq, Repr

/-- The defaults of R11 and R12 (log entry 10). -/
def Params.standard : Params where
  shiftKind := .arithmetic
  hasDraws  := true

/-- FREE VALUE (log entry 2): what `STATE` holds after the `k`-th reset input (R34, R160: "unspecified").
It has no body, so nothing can be proved of it. -/
opaque Config.unspecifiedState : Nat → Word

end Sys2Proof
end

