-- ==== Sys2Proof/Syntax.lean ====
section
/-! DEFINITION. The twelve commands of R56 with the operands of R53, in the document's argument order (R65). -/

namespace Sys2Proof

/-- One constructor per row of the opcode map (R56). An operand has the width R53 gives it; `n` and `bits`
are the `N` field, of which every value decodes (R58). -/
inductive Instr where
  /-- SEED raw_seed (R81). -/
  | seed (rawSeed : Word)
  /-- SETST raw (R82). -/
  | setst (raw : Word)
  /-- GETST (R83). -/
  | getst
  /-- NEXTB n (R91). -/
  | nextb (n : BitCount)
  /-- NEXTL (R92). -/
  | nextl
  /-- STEP.F state, multiplier, increment, mask, bits (R94). -/
  | stepF (state multiplier increment mask : Word) (bits : BitCount)
  /-- STEP.R state, multiplier, increment, mask, bits (R95). -/
  | stepR (state multiplier increment mask : Word) (bits : BitCount)
  /-- POPSEED world_seed, x, z (R110). -/
  | popseed (worldSeed : Word) (x z : W32)
  /-- DECSEED seed, index, step (R111). -/
  | decseed (seed : Word) (index step : W16)
  /-- NEXTF (R122). -/
  | nextf
  /-- NEXTIP bound (R123). -/
  | nextip (bound : W32)
  /-- NEXTI bound (R124). -/
  | nexti (bound : W32)
  deriving DecidableEq, Repr

end Sys2Proof
end

