-- ==== Sys2Proof/WellFormed.lean ====
section
/-! DEFINITION. Which commands exist on a given block (R62, R120), and which operands the caller may give
(the refusing rows of R166). Operand widths are the types of `Instr`, so no check of them is left. -/

namespace Sys2Proof

/-- The command exists under the parameters `p`: NEXTF, NEXTIP and NEXTI only with `HAS_DRAWS` (R62, R120). -/
def Instr.wellFormed (p : Params) : Instr → Bool
  | .seed _ => true
  | .setst _ => true
  | .getst => true
  | .nextb _ => true
  | .nextl => true
  | .stepF _ _ _ _ _ => true
  | .stepR _ _ _ _ _ => true
  | .popseed _ _ _ => true
  | .decseed _ _ _ => true
  | .nextf => p.hasDraws
  | .nextip _ => p.hasDraws
  | .nexti _ => p.hasDraws

/-- `lo ≤ n ≤ hi` on a bit count read as unsigned (R58). -/
def BitCount.within (lo hi : Nat) (n : BitCount) : Bool :=
  decide (lo ≤ n.toNat ∧ n.toNat ≤ hi)

/-- `bound` is `2^j` with `0 ≤ j ≤ 30` (R123). -/
def W32.isPow2 (bound : W32) : Bool :=
  (List.range 31).any fun j => bound.toNat == 2 ^ j

/-- The operands meet the implicit requirements whose breach R166 refuses. (A wrong inverse and an unmasked
SETST are breaches with a defined value, R147: they are admitted here.) -/
def Instr.operandsAdmitted : Instr → Bool
  | .seed _ => true
  | .setst _ => true
  | .getst => true
  | .nextb n => n.within 1 32
  | .nextl => true
  | .stepF _ _ _ _ bits => bits.within 1 48
  | .stepR _ _ _ _ bits => bits.within 1 48
  | .popseed _ _ _ => true
  | .decseed _ _ _ => true
  | .nextf => true
  | .nextip bound => bound.isPow2
  | .nexti bound => decide (0 < bound.toInt)

end Sys2Proof
end

