-- ==== Sys2Proof/Decode.lean ====
section
/-! DEFINITION. Requests (R50), the command word's fields (R52), decoding (R56 to R62) and encoding (R67). -/

namespace Sys2Proof

/-- One request: the command word and the four operand ports, sampled together (R50). -/
structure Request where
  cmd : CmdWord
  opa : Word
  opb : Word
  opc : Word
  opd : Word
  deriving DecidableEq, Repr

/-- The grounds of R61 on which a word is a reserved encoding. DESIGN CHOICE (log entry 11): where several
hold, the first in the order `zeroField`, `opcode`, `drawsAbsent`, `direction`, `bitCount` is named; every one
is refused as `ReservedEncoding`. -/
inductive Reserved where
  /-- `OP` is 0x0 or 0xC to 0xF. -/
  | opcode
  /-- `ZERO ≠ 0`. -/
  | zeroField
  /-- `DIR = 1` and `OP ≠ 0x6`. -/
  | direction
  /-- `N ≠ 0` and `OP` is neither 0x4 nor 0x6. -/
  | bitCount
  /-- `OP` is 0x9, 0xA or 0xB and `HAS_DRAWS = false` (R62). -/
  | drawsAbsent
  deriving DecidableEq, Repr

/-- `OP = CMD[3:0]` (R52). -/
def fieldOp (cmd : CmdWord) : BitVec 4 := cmd.extractLsb' 0 4

/-- `N = CMD[9:4]` (R52). -/
def fieldN (cmd : CmdWord) : BitCount := cmd.extractLsb' 4 6

/-- `DIR = CMD[10]` (R52, R57): 0 is Forward, 1 is Reverse. -/
def fieldDir (cmd : CmdWord) : BitVec 1 := cmd.extractLsb' 10 1

/-- `ZERO = CMD[15:11]` (R52). -/
def fieldZero (cmd : CmdWord) : BitVec 5 := cmd.extractLsb' 11 5

/-- A 32-bit operand is the low half of its port; the rest is ignored (R54). -/
def low32 (port : Word) : W32 := port.setWidth 32

/-- A 16-bit operand is the low 16 bits of its port; the rest is ignored (R54). -/
def low16 (port : Word) : W16 := port.setWidth 16

/-- A command in whose word `DIR` must be 0 (R61). -/
def forwardOnly (cmd : CmdWord) (i : Instr) : Except Reserved Instr :=
  if fieldDir cmd ≠ 0 then .error .direction else .ok i

/-- A command in whose word `DIR` and `N` must be 0 (R61). -/
def plain (cmd : CmdWord) (i : Instr) : Except Reserved Instr :=
  if fieldDir cmd ≠ 0 then .error .direction
  else if fieldN cmd ≠ 0 then .error .bitCount
  else .ok i

/-- A command of the optional family (R62). -/
def derivedDraw (p : Params) (cmd : CmdWord) (i : Instr) : Except Reserved Instr :=
  if p.hasDraws = false then .error .drawsAbsent else plain cmd i

/-- Decoding, total on every request (R60): the opcode map of R56 with the operand places of R53. -/
def decode (p : Params) (r : Request) : Except Reserved Instr :=
  if fieldZero r.cmd ≠ 0 then .error .zeroField
  else match (fieldOp r.cmd).toNat with
    | 0x1 => plain r.cmd (.seed r.opa)
    | 0x2 => plain r.cmd (.setst r.opa)
    | 0x3 => plain r.cmd .getst
    | 0x4 => forwardOnly r.cmd (.nextb (fieldN r.cmd))
    | 0x5 => plain r.cmd .nextl
    | 0x6 =>
      if fieldDir r.cmd = 0 then .ok (.stepF r.opa r.opb r.opc r.opd (fieldN r.cmd))
      else .ok (.stepR r.opa r.opb r.opc r.opd (fieldN r.cmd))
    | 0x7 => plain r.cmd (.popseed r.opa (low32 r.opb) (low32 r.opc))
    | 0x8 => plain r.cmd (.decseed r.opa (low16 r.opb) (low16 r.opc))
    | 0x9 => derivedDraw p r.cmd .nextf
    | 0xA => derivedDraw p r.cmd (.nextip (low32 r.opa))
    | 0xB => derivedDraw p r.cmd (.nexti (low32 r.opa))
    | _ => .error .opcode

/-- A command word from its fields, `ZERO` being zero (R52). -/
def commandWord (op : BitVec 4) (n : BitCount) (dir : BitVec 1) : CmdWord :=
  (0#5 ++ dir ++ n ++ op : BitVec 16)

/-- Encoding (R67): `N` and `DIR` filled for formats N and S, each operand on its port of R53, a narrow
operand in the low bits with zeros above, unused ports zero. -/
def encode : Instr → Request
  | .seed rawSeed => ⟨commandWord 0x1 0 0, rawSeed, 0, 0, 0⟩
  | .setst raw => ⟨commandWord 0x2 0 0, raw, 0, 0, 0⟩
  | .getst => ⟨commandWord 0x3 0 0, 0, 0, 0, 0⟩
  | .nextb n => ⟨commandWord 0x4 n 0, 0, 0, 0, 0⟩
  | .nextl => ⟨commandWord 0x5 0 0, 0, 0, 0, 0⟩
  | .stepF state multiplier increment mask bits =>
    ⟨commandWord 0x6 bits 0, state, multiplier, increment, mask⟩
  | .stepR state multiplier increment mask bits =>
    ⟨commandWord 0x6 bits 1, state, multiplier, increment, mask⟩
  | .popseed worldSeed x z => ⟨commandWord 0x7 0 0, worldSeed, x.setWidth 64, z.setWidth 64, 0⟩
  | .decseed seed index step =>
    ⟨commandWord 0x8 0 0, seed, index.setWidth 64, step.setWidth 64, 0⟩
  | .nextf => ⟨commandWord 0x9 0 0, 0, 0, 0, 0⟩
  | .nextip bound => ⟨commandWord 0xA 0 0, bound.setWidth 64, 0, 0, 0⟩
  | .nexti bound => ⟨commandWord 0xB 0 0, bound.setWidth 64, 0, 0, 0⟩

/-- The exact match and mask of each command, as R59 lists them. -/
def matchMask : Instr → CmdWord × CmdWord
  | .seed _ => (0x0001, 0xFFFF)
  | .setst _ => (0x0002, 0xFFFF)
  | .getst => (0x0003, 0xFFFF)
  | .nextb _ => (0x0004, 0xFC0F)
  | .nextl => (0x0005, 0xFFFF)
  | .stepF _ _ _ _ _ => (0x0006, 0xFC0F)
  | .stepR _ _ _ _ _ => (0x0406, 0xFC0F)
  | .popseed _ _ _ => (0x0007, 0xFFFF)
  | .decseed _ _ _ => (0x0008, 0xFFFF)
  | .nextf => (0x0009, 0xFFFF)
  | .nextip _ => (0x000A, 0xFFFF)
  | .nexti _ => (0x000B, 0xFFFF)

/-- The request whose bits, numbered from `CMD[0]` through `OPA`, `OPB`, `OPC` to `OPD[63]`, are the low
`nbits` bits of `w`, all others zero. DESIGN CHOICE (log entry 5): the ports have no order of bits among
them; the opcode table's numbering reaches only `CMD`. -/
def requestOfBits (nbits w : Nat) : Request :=
  let v := w % 2 ^ nbits
  { cmd := BitVec.ofNat 16 v
    opa := BitVec.ofNat 64 (v / 2 ^ 16)
    opb := BitVec.ofNat 64 (v / 2 ^ 80)
    opc := BitVec.ofNat 64 (v / 2 ^ 144)
    opd := BitVec.ofNat 64 (v / 2 ^ 208) }

/-- The command the decoder reads, on a block with the default parameters, from the table's bits `w`. -/
def decodeTableWord (nbits w : Nat) : Option Instr :=
  match decode Params.standard (requestOfBits nbits w) with
  | .ok i => some i
  | .error _ => none

end Sys2Proof
end

