-- ==== Sys2Proof/Machine/State.lean ====
section
/-! DEFINITION. The block's state (R20 to R36), what crosses its interface (R50, R51), why a command is refused
(R143, R146), and the state after reset (R34, R161). -/

namespace Sys2Proof.Machine

/-- Where the instance is in the document's life cycle (R23); the spec gives it no bit encoding. -/
inductive Phase where
  | uninitialized
  | seeded
  | advanced
  deriving DecidableEq, Repr

/-- One response: the result ports the command's format names, and no others (R51). -/
inductive Response where
  /-- No result port (SETST). -/
  | none
  /-- `RES0` alone. -/
  | res0 (r0 : Word)
  /-- `RES0` and `RES1` (STEP.F, STEP.R). -/
  | res01 (r0 r1 : Word)
  deriving DecidableEq, Repr

/-- What the host can do to the block: issue a command (R50), or assert reset between commands (R160). -/
inductive HostInput where
  | command (r : Request)
  | reset
  deriving DecidableEq, Repr

/-- The block raises no exception and nothing in it traps (R140, R141): no fault exists, and none is raised. -/
inductive Fault where
  deriving DecidableEq, Repr

/-- Why the model gives a command no meaning (R146). A refusal is a property of the model; it errs toward the
unprovable (safe), since the hardware may do more than stop. -/
inductive Refusal where
  /-- Raised by an arm of `exec` that has no meaning yet; no arm does. Safe. -/
  | notModelled (mnemonic : String)
  /-- Raised by decode: the word is not one of the twelve commands (R61, R146). Safe. -/
  | reservedEncoding
  /-- Raised by NEXTB for `N` outside 1 to 32, by STEP.F and STEP.R for `N` outside 1 to 48 (R91, R97). Safe. -/
  | bitsOutOfRange
  /-- Raised by NEXTIP and NEXTI for a bound that is not positive (R123, R124). Safe. -/
  | boundNotPositive
  /-- Raised by NEXTIP for a positive bound that is not a power of two (R123). Safe. -/
  | boundNotPowerOfTwo
  /-- Raised by GETST and every draw while `PHASE = Uninitialized` (R24, R25, R34, R146, R164, D9, U8). Safe. -/
  | uninitRead
  /-- Raised by NEXTI when no draw of a whole period is accepted, so that the loop is not shown to end
  (R126, U9; log entry 7). Safe; no state and no bound reach it. -/
  | drawLoopUnended
  deriving DecidableEq, Repr

/-- The state. `stateReg`, `phase` are the block's registers; `params` is what the instance was built with;
`inputs`, `responses` are the host's side of the interface and `freeCount` numbers the free values. -/
structure State where
  /-- The register `PHASE` (R23). It stands first so that a stepped state and an old one differ, for the kernel,
  before their words are compared. -/
  phase : Phase
  /-- The register `STATE`, 64 bits (R20). -/
  stateReg : Word
  /-- The implementation parameters, fixed when the instance is built (R11, R12, R30). -/
  params : Params
  /-- What the host has still to give the block, in order (R28, R45). -/
  inputs : List HostInput
  /-- The responses the host has collected, oldest first (R163). -/
  responses : List Response
  /-- How many free values have been taken (log entry 2). -/
  freeCount : Nat
  deriving DecidableEq, Repr

/-- An instance built with the parameters `p`, right after reset (R34, R161). `STATE` is unspecified there;
DESIGN CHOICE (log entry 1): it is held as 0, and no command reads it. -/
def State.powerOn (p : Params) : State where
  phase     := .uninitialized
  stateReg  := 0
  params    := p
  inputs    := []
  responses := []
  freeCount := 0

/-- The machine right after reset, with the default parameters of R11 and R12. -/
def State.reset : State := State.powerOn Params.standard

end Sys2Proof.Machine
end

