-- ==== Sys2Proof/Machine/Ops.lean ====
section
/-! DEFINITION. The named operations over the registers, the interface and the refusals. The block has no memory
(R40) and takes no exception (R144), so no operation of either kind stands here. -/

namespace Sys2Proof.Machine

/-- The outcome of a command on this machine. -/
abbrev Result := Host.Outcome State Fault Refusal

/-- `Scramble(v)` (R80). -/
def scramble (v : Word) : Word := (v ^^^ MULT) &&& MASK48

/-- The new `STATE` of one canonical step (R90), wrapping at 64 bits before the mask. -/
def canonStep (g : Word) : Word := (g * MULT + ADD) &&& MASK48

/-- The top `n` of the 48 state bits, as an `i32` (R90). -/
def topBits (n : Nat) (g : Word) : W32 := trunc32 (g >>> (48 - n))

/-- The state after a canonical step to `g`: `STATE <- g`, `PHASE <- Advanced` (R90). -/
def State.advanceTo (s : State) (g : Word) : State :=
  { s with stateReg := g, phase := .advanced }

/-- `NextBits(n)` (R90): one canonical step; the drawn bits and the state after it. -/
def nextBits (n : Nat) (s : State) : W32 × State :=
  (topBits n (canonStep s.stateReg), s.advanceTo (canonStep s.stateReg))

/-- The two steps and the sum of NEXTL (R92): the first draw is the high half. -/
def nextLong (s : State) : Word × State :=
  let hi := nextBits 32 s
  let lo := nextBits 32 hi.2
  ((sext32 hi.1 <<< 32) + sext32 lo.1, lo.2)

/-- Seeding with `v` (R81; the re-seed of R110 and R111). -/
def State.seedWith (s : State) (v : Word) : State :=
  { s with stateReg := scramble v, phase := .seeded }

/-- The response to a command, delivered to the host (R51, R168). -/
def State.respond (s : State) (r : Response) : State :=
  { s with responses := s.responses ++ [r] }

/-- `if not ok then refuse why` before the rest of a command's pseudocode (R18, R146). The rest is not computed
for a refused command. -/
def check (ok : Bool) (why : Refusal) (rest : Unit → Result) : Result :=
  if ok then rest () else .refused why

/-- `if PHASE = Uninitialized then refuse UninitRead`, the line that stands in the pseudocode of every command that
reads `STATE` (R83, R91, R92, R122, R123, R124). It is the one effect of `PHASE` (R25): the test is of that register, not
of whether `STATE` holds a value, and the spec asks for the refusal and for no value, a free one included (R34, R146,
R164, D9, U8). -/
def readingState (s : State) (rest : Unit → Result) : Result :=
  check (s.phase != .uninitialized) .uninitRead rest

/-- Reset (R160): `PHASE` to `Uninitialized`, `STATE` unspecified, a FREE VALUE (log entry 2). What the host
holds, its further inputs and the responses it has collected, is not the block's and stays. -/
def State.applyReset (s : State) : State :=
  { s with
    stateReg  := Config.unspecifiedState s.freeCount
    phase     := .uninitialized
    freeCount := s.freeCount + 1 }

/-- The host's next input and the state once it is taken (R45); none when the host has stopped (R163). -/
def State.takeInput (s : State) : Option (HostInput × State) :=
  match s.inputs with
  | [] => none
  | h :: rest => some (h, { s with inputs := rest })

/-- The host puts one command before all its others. -/
def State.issueFirst (s : State) (r : Request) : State :=
  { s with inputs := .command r :: s.inputs }

end Sys2Proof.Machine
end

