-- ==== Sys2Proof/Machine/Draws.lean ====
section
/-! DEFINITION. The derived draws: NEXTF, NEXTIP, NEXTI (43_derived_draws.md). Whether they exist on an instance
is the decoder's check (R62, R120; log entry 8). -/

namespace Sys2Proof.Machine

/-- The binary32 pattern of `k / 2^24` for `0 ≤ k < 2^24` (R121; the format is PRESUMED, log entry 9). -/
def floatPattern (k : Nat) : W32 :=
  if k = 0 then 0
  else
    let e := Nat.log2 k
    0#1 ++ BitVec.ofNat 8 (103 + e) ++ BitVec.ofNat 23 ((k - 2 ^ e) * 2 ^ (23 - e))

/-- NEXTF (R122). -/
def execNextf (s : State) : Result :=
  readingState s fun _ =>
    let k := nextBits 24 s
    .next (k.2.respond (.res0 (f32Result (floatPattern k.1.toNat))))

/-- `(bound * bits) >>a 31` on the 64-bit product, cut to 32 bits (R123). -/
def scaledDraw (bound bits : W32) : W32 :=
  trunc32 ((sext32 bound * sext32 bits).sshiftRight 31)

/-- NEXTIP (R123). -/
def execNextip (bound : W32) (s : State) : Result :=
  check (boundPositive bound) .boundNotPositive fun _ =>
  check (boundPowerOfTwo bound) .boundNotPowerOfTwo fun _ =>
  readingState s fun _ =>
    let d := nextBits 31 s
    .next (d.2.respond (.res0 (i32Result (scaledDraw bound d.1))))

/-- The `repeat` of NEXTI (R124), at most `fuel` times: the accepted `val` and the state after its draw. -/
def drawUntilAccepted (bound : W32) : Nat → State → Option (W32 × State)
  | 0, _ => none
  | fuel + 1, s =>
    let d := nextBits 31 s
    let val := d.1 % bound
    if drawAccepted d.1 val bound then some (val, d.2)
    else drawUntilAccepted bound fuel d.2

/-- The fuel of NEXTI: the period of the canonical step (R126). It is no cap (R169): DEDUCED (log entry 7), a
loop that has not ended within one period never ends, and every loop ends within it. -/
def drawFuel : Nat := 2 ^ 48

/-- The outcome of NEXTI's loop: its result when it ends, and no value when it is not shown to (R126, U9). -/
def loopResult : Option (W32 × State) → Result
  | some d => .next (d.2.respond (.res0 (i32Result d.1)))
  | none => .refused .drawLoopUnended

/-- NEXTI (R124). -/
def execNexti (bound : W32) (s : State) : Result :=
  check (boundPositive bound) .boundNotPositive fun _ =>
  readingState s fun _ =>
    loopResult (drawUntilAccepted bound drawFuel s)

end Sys2Proof.Machine
end

