-- ==== Sys2Proof/Machine/Mixer.lean ====
section
/-! DEFINITION. The coord_seed_mixer: POPSEED, DECSEED (42_coord_seed_mixer.md). -/

namespace Sys2Proof.Machine

/-- The last step of both mixing commands: re-seed with `derived` and return it, all 64 bits (R110 to R112). -/
def reseed (derived : Word) (s : State) : Result :=
  .next ((s.seedWith derived).respond (.res0 derived))

/-- Step 3 of POPSEED (R110): the exclusive OR is applied last, to the sum. -/
def populationMix (s1 s2 worldSeed : Word) (x z : W32) : Word :=
  ((s1 * sext32 x) + (s2 * sext32 z)) ^^^ worldSeed

/-- POPSEED (R110). -/
def execPopseed (worldSeed : Word) (x z : W32) (s : State) : Result :=
  let first := nextLong (s.seedWith worldSeed)
  let second := nextLong first.2
  reseed (populationMix (first.1 ||| 1) (second.1 ||| 1) worldSeed x z) second.2

/-- `derived` of DECSEED (R111). -/
def decoratorMix (seed : Word) (index step : W16) : Word :=
  seed + sext16 index + 10000 * sext16 step

/-- DECSEED (R111). -/
def execDecseed (seed : Word) (index step : W16) (s : State) : Result :=
  reseed (decoratorMix seed index step) s

end Sys2Proof.Machine
end

