-- ==== Sys2Proof/Machine/Scrambler.lean ====
section
/-! DEFINITION. The seed_xor_scrambler and the state accessors: SEED, SETST, GETST (40_seed_xor_scrambler.md). -/

namespace Sys2Proof.Machine

/-- SEED (R81): seed with `raw_seed`; `RES0` is the new `STATE`. -/
def execSeed (rawSeed : Word) (s : State) : Result :=
  let t := s.seedWith rawSeed
  .next (t.respond (.res0 t.stateReg))

/-- SETST (R82): all 64 bits, neither masked nor scrambled; no result. -/
def execSetst (raw : Word) (s : State) : Result :=
  .next (State.respond { s with stateReg := raw, phase := .seeded } .none)

/-- GETST (R83): all 64 bits of `STATE`. -/
def execGetst (s : State) : Result :=
  readingState s fun _ => .next (s.respond (.res0 s.stateReg))

end Sys2Proof.Machine
end

