-- ==== Sys2Proof/Machine/Stepper.lean ====
section
/-! DEFINITION. The lcg_state_stepper: NEXTB, NEXTL, STEP.F, STEP.R (41_lcg_state_stepper.md). -/

namespace Sys2Proof.Machine

/-- NEXTB (R91). -/
def execNextb (n : BitCount) (s : State) : Result :=
  check (bitsInRange 32 n) .bitsOutOfRange fun _ =>
  readingState s fun _ =>
    let d := nextBits n.toNat s
    .next (d.2.respond (.res0 (i32Result d.1)))

/-- NEXTL (R92). -/
def execNextl (s : State) : Result :=
  readingState s fun _ =>
    let d := nextLong s
    .next (d.2.respond (.res0 d.1))

/-- `new_state >> (48 − bits)`, the kind of shift being the instance's (R98); all 64 bits (R99). -/
def extracted (kind : ShiftKind) (bits : BitCount) (newState : Word) : Word :=
  match kind with
  | .arithmetic => newState.sshiftRight (48 - bits.toNat)
  | .logical => newState >>> (48 - bits.toNat)

/-- The response of STEP for a new state; `STATE` and `PHASE` are neither read nor written (R96). -/
def stepResponse (bits : BitCount) (newState : Word) (s : State) : Result :=
  check (bitsInRange 48 bits) .bitsOutOfRange fun _ =>
    .next (s.respond (.res01 newState (extracted s.params.shiftKind bits newState)))

/-- The new state of a forward step (R94). -/
def forwardState (state multiplier increment mask : Word) : Word :=
  (state * multiplier + increment) &&& mask

/-- The new state of a reverse step (R95): the increment is subtracted before the multiplication. -/
def reverseState (state multiplier increment mask : Word) : Word :=
  ((state - increment) * multiplier) &&& mask

/-- STEP.F (R94). -/
def execStepF (state multiplier increment mask : Word) (bits : BitCount) (s : State) : Result :=
  stepResponse bits (forwardState state multiplier increment mask) s

/-- STEP.R (R95). -/
def execStepR (state multiplier increment mask : Word) (bits : BitCount) (s : State) : Result :=
  stepResponse bits (reverseState state multiplier increment mask) s

end Sys2Proof.Machine
end

