-- ==== Sys2Proof/Machine/Dispatch.lean ====
section
/-! DEFINITION. One arm per command of the opcode map (R56). -/

namespace Sys2Proof.Machine

def exec (i : Instr) (s : State) : Host.Outcome State Fault Refusal :=
  match i with
  | .seed rawSeed => Sys2Proof.Machine.execSeed rawSeed s
  | .setst raw => Sys2Proof.Machine.execSetst raw s
  | .getst => Sys2Proof.Machine.execGetst s
  | .nextb n => Sys2Proof.Machine.execNextb n s
  | .nextl => Sys2Proof.Machine.execNextl s
  | .stepF state multiplier increment mask bits => Sys2Proof.Machine.execStepF state multiplier increment mask bits s
  | .stepR state multiplier increment mask bits => Sys2Proof.Machine.execStepR state multiplier increment mask bits s
  | .popseed worldSeed x z => Sys2Proof.Machine.execPopseed worldSeed x z s
  | .decseed seed index step => Sys2Proof.Machine.execDecseed seed index step s
  | .nextf => Sys2Proof.Machine.execNextf s
  | .nextip bound => Sys2Proof.Machine.execNextip bound s
  | .nexti bound => Sys2Proof.Machine.execNexti bound s

end Sys2Proof.Machine
end

