-- ==== Sys2Proof/Machine/Step.lean ====
section
/-! DEFINITION. One step: the block takes the host's next input (R45, R168). -/

namespace Sys2Proof.Machine

/-- One step. A command is decoded and executed, or refused as a reserved encoding (R61); a reset is applied
(R160); when the host has stopped, nothing happens (R163; log entry 4). -/
def step (s : State) : Host.Outcome State Fault Refusal :=
  match s.takeInput with
  | none => .next s
  | some (.reset, t) => .next t.applyReset
  | some (.command r, t) =>
    match decode t.params r with
    | .ok i => exec i t
    | .error _ => .refused .reservedEncoding

/-- `s` with the instruction of the opcode table's bits `w` as the host's next command. -/
def State.withFetchWord (s : State) (nbits w : Nat) : State :=
  s.issueFirst (requestOfBits nbits w)

end Sys2Proof.Machine
end

