-- ==== Sys2Proof/Machine/Assembler.lean ====
section
/-! DEFINITION. Listing lines (R65), the pseudo-instructions (R66) and their requests (R67). The machine does not
depend on this file. -/

namespace Sys2Proof.Machine

/-- The mnemonics of R65 and the two pseudo-instructions of R66. -/
inductive Mnemonic where
  | seed | setst | getst | nextb | nextl | stepF | stepR | popseed | decseed | nextf | nextip | nexti
  | cstepF | cstepR
  deriving DecidableEq, Repr

/-- A mnemonic as a listing writes it (R65, R66). -/
def Mnemonic.text : Mnemonic → List Char
  | .seed => ['S', 'E', 'E', 'D']
  | .setst => ['S', 'E', 'T', 'S', 'T']
  | .getst => ['G', 'E', 'T', 'S', 'T']
  | .nextb => ['N', 'E', 'X', 'T', 'B']
  | .nextl => ['N', 'E', 'X', 'T', 'L']
  | .stepF => ['S', 'T', 'E', 'P', '.', 'F']
  | .stepR => ['S', 'T', 'E', 'P', '.', 'R']
  | .popseed => ['P', 'O', 'P', 'S', 'E', 'E', 'D']
  | .decseed => ['D', 'E', 'C', 'S', 'E', 'E', 'D']
  | .nextf => ['N', 'E', 'X', 'T', 'F']
  | .nextip => ['N', 'E', 'X', 'T', 'I', 'P']
  | .nexti => ['N', 'E', 'X', 'T', 'I']
  | .cstepF => ['C', 'S', 'T', 'E', 'P', '.', 'F']
  | .cstepR => ['C', 'S', 'T', 'E', 'P', '.', 'R']

/-- Every mnemonic. -/
def Mnemonic.all : List Mnemonic :=
  [.seed, .setst, .getst, .nextb, .nextl, .stepF, .stepR, .popseed, .decseed, .nextf, .nextip, .nexti,
    .cstepF, .cstepR]

/-- A literal for a `w`-bit operand: any integer from `−2^(w−1)` to `2^w − 1`, taken modulo `2^w` (R65). -/
def literal (w : Nat) (v : Int) : Option (BitVec w) :=
  if -(2 ^ (w - 1)) ≤ v ∧ v ≤ 2 ^ w - 1 then some (BitVec.ofInt w v) else none

/-- `n` and `bits` are 0 to 63 (R65). -/
def literalCount (v : Int) : Option BitCount :=
  if 0 ≤ v ∧ v ≤ 63 then some (BitVec.ofInt 6 v) else none

/-- A pseudo-instruction is a STEP with the canonical parameters (R66). -/
def expand : Mnemonic → List Int → Mnemonic × List Int
  | .cstepF, [state, bits] => (.stepF, [state, MULT.toNat, ADD.toNat, MASK48.toNat, bits])
  | .cstepR, [state, bits] => (.stepR, [state, MULT_INVERSE.toNat, ADD.toNat, MASK48.toNat, bits])
  | m, operands => (m, operands)

/-- The command of a mnemonic of R65 with its operands in the document's argument order; none for a wrong number
of operands or a literal out of range. -/
def assembleCore : Mnemonic → List Int → Option Instr
  | .seed, [raw] => do return .seed (← literal 64 raw)
  | .setst, [raw] => do return .setst (← literal 64 raw)
  | .getst, [] => some .getst
  | .nextb, [n] => do return .nextb (← literalCount n)
  | .nextl, [] => some .nextl
  | .stepF, [g, m, c, k, b] => do
    return .stepF (← literal 64 g) (← literal 64 m) (← literal 64 c) (← literal 64 k) (← literalCount b)
  | .stepR, [g, m, c, k, b] => do
    return .stepR (← literal 64 g) (← literal 64 m) (← literal 64 c) (← literal 64 k) (← literalCount b)
  | .popseed, [w, x, z] => do return .popseed (← literal 64 w) (← literal 32 x) (← literal 32 z)
  | .decseed, [g, i, k] => do return .decseed (← literal 64 g) (← literal 16 i) (← literal 16 k)
  | .nextf, [] => some .nextf
  | .nextip, [b] => do return .nextip (← literal 32 b)
  | .nexti, [b] => do return .nexti (← literal 32 b)
  | _, _ => none

/-- The command of a listing line's mnemonic and operands (R65, R66). -/
def assemble (m : Mnemonic) (operands : List Int) : Option Instr :=
  let line := expand m operands
  assembleCore line.1 line.2

/-- A command as a listing line: its mnemonic and its operands as unsigned numbers, which R65 admits. -/
def disassemble : Instr → Mnemonic × List Int
  | .seed raw => (.seed, [raw.toNat])
  | .setst raw => (.setst, [raw.toNat])
  | .getst => (.getst, [])
  | .nextb n => (.nextb, [n.toNat])
  | .nextl => (.nextl, [])
  | .stepF g m c k b => (.stepF, [g.toNat, m.toNat, c.toNat, k.toNat, b.toNat])
  | .stepR g m c k b => (.stepR, [g.toNat, m.toNat, c.toNat, k.toNat, b.toNat])
  | .popseed w x z => (.popseed, [w.toNat, x.toNat, z.toNat])
  | .decseed g i k => (.decseed, [g.toNat, i.toNat, k.toNat])
  | .nextf => (.nextf, [])
  | .nextip b => (.nextip, [b.toNat])
  | .nexti b => (.nexti, [b.toNat])

/-- White space inside a line. DESIGN CHOICE (log entry 13): blank or tab. -/
def isBlank (c : Char) : Bool := c == ' ' || c == '\t'

/-- A line without the white space at its ends. -/
def trim (cs : List Char) : List Char :=
  ((cs.dropWhile isBlank).reverse.dropWhile isBlank).reverse

/-- The text between separators. -/
def splitAtEvery (sep : Char) : List Char → List (List Char)
  | [] => [[]]
  | c :: cs =>
    match splitAtEvery sep cs with
    | [] => [[c]]
    | piece :: pieces => if c == sep then [] :: piece :: pieces else (c :: piece) :: pieces

/-- The value of a digit in base 10 or 16. DESIGN CHOICE (log entry 13): hexadecimal digits in either case. -/
def digitValue (base : Nat) (c : Char) : Option Nat :=
  let n := c.toNat
  if 48 ≤ n ∧ n ≤ 57 then some (n - 48)
  else if base = 16 ∧ 65 ≤ n ∧ n ≤ 70 then some (n - 55)
  else if base = 16 ∧ 97 ≤ n ∧ n ≤ 102 then some (n - 87)
  else none

/-- The number a run of digits continues, from the value `acc` of the digits before it. -/
def readDigits (base : Nat) : Nat → List Char → Option Nat
  | acc, [] => some acc
  | acc, c :: cs =>
    match digitValue base c with
    | some d => readDigits base (base * acc + d) cs
    | none => none

/-- A number of at least one digit. -/
def readNumber (base : Nat) : List Char → Option Nat
  | [] => none
  | cs => readDigits base 0 cs

/-- An integer literal: decimal, optionally with a leading `-`, or hexadecimal with `0x` (R65). -/
def readLiteral : List Char → Option Int
  | '-' :: cs => (readNumber 10 cs).map fun n => -(n : Int)
  | '0' :: 'x' :: cs => (readNumber 16 cs).map Int.ofNat
  | cs => (readNumber 10 cs).map Int.ofNat

/-- Every literal of a list, or none. -/
def readLiterals : List (List Char) → Option (List Int)
  | [] => some []
  | p :: ps => do return (← readLiteral (trim p)) :: (← readLiterals ps)

/-- The mnemonic a text spells. -/
def readMnemonic (cs : List Char) : Option Mnemonic :=
  Mnemonic.all.find? fun m => m.text == cs

/-- One line (R65): a `;` starts a comment to its end, and operands are separated by commas. The outer option is `none`
for a line that is not read. DESIGN CHOICE (log entry 13), R65 being silent on both: a line that is blank or holds only
a comment is read and holds no command, and a line that carries a result, `GETST -> 0x5`, is not read. -/
def readLine (line : List Char) : Option (Option Instr) :=
  let body := trim (line.takeWhile (· != ';'))
  if body.isEmpty then some none
  else do
    let m ← readMnemonic (body.takeWhile fun c => !isBlank c)
    let rest := trim (body.dropWhile fun c => !isBlank c)
    let operands ← if rest.isEmpty then some [] else readLiterals (splitAtEvery ',' rest)
    return some (← assemble m operands)

/-- A program (R65): a sequence of lines, one command per line; its requests in order (R67). -/
def readProgram (text : List Char) : Option (List HostInput) := do
  let lines ← (splitAtEvery '\n' text).mapM readLine
  return lines.filterMap fun line => line.map fun i => .command (encode i)

end Sys2Proof.Machine
end

