-- ==== Sys2Proof/Machine/Program.lean ====
section
/-! DEFINITION. A run of a host's program that goes on after a refusal, with the mark of R146. `step` itself stops at
a refusal (log entry 3); the host may drop the refused command and issue its next one, as program P5 of
95_test_vectors.md does. -/

namespace Sys2Proof.Machine

/-- A run: the state reached and the refusals met on the way, oldest first. -/
structure Run where
  state    : State
  refusals : List Refusal
  deriving DecidableEq, Repr

/-- The mark of R146: kept for the rest of the run once a command has been refused. -/
def Run.marked (r : Run) : Bool := !r.refusals.isEmpty

/-- After a refusal: neither `STATE` nor `PHASE` has changed, there is no response, and the refused command is
behind the host (R146). -/
def State.dropInput (s : State) : State := { s with inputs := s.inputs.tail }

/-- One input of a run. -/
def Run.advance (r : Run) : Run :=
  match step r.state with
  | .next t => { r with state := t }
  | .refused why => { state := r.state.dropInput, refusals := r.refusals ++ [why] }
  | .fault f => nomatch f

/-- `k` inputs of a run. -/
def Run.advances : Nat → Run → Run
  | 0, r => r
  | k + 1, r => Run.advances k r.advance

/-- The host's whole program from state `s` (R28, R163): every input in order, refused or not. -/
def runProgram (program : List HostInput) (s : State) : Run :=
  Run.advances program.length ⟨{ s with inputs := program }, []⟩

end Sys2Proof.Machine
end

