-- ==== Sys2Proof/Safety.lean ====
section
/-! DEFINITION. The terms statements use: the canonical recurrence in unbounded integers (R90), the invariants of the
state (R20, R35, R166), what a command reads and writes (R21, R24, R25), and which states a host cannot tell apart. -/

namespace Sys2Proof.Machine

/-- The canonical recurrence in unbounded integers: `(x * 25214903917 + 11) mod 2^48` (R90, R17). -/
def lcgNat (x : Nat) : Nat := (x * 25214903917 + 11) % 2 ^ 48

/-- `k` canonical steps in unbounded integers. -/
def lcgIter (k x : Nat) : Nat := Nat.iterate lcgNat k x

/-- The top `n` bits of a 48-bit state (R90). -/
def topNat (n g : Nat) : Nat := g / 2 ^ (48 - n)

/-- The 64-bit value two draws of 32 bits make from the state `g`, as an integer before wrapping (R92). -/
def longInt (g : Nat) : Int :=
  (BitVec.ofNat 32 (topNat 32 (lcgNat g))).toInt * 2 ^ 32
    + (BitVec.ofNat 32 (topNat 32 (lcgIter 2 g))).toInt

/-- `Scramble(v)` on the number `v` denotes: the exclusive OR, reduced modulo `2^48` (R80). -/
def scrambleNat (v : Word) : Nat := (v ^^^ 0x5DEECE66D#64).toNat % 2 ^ 48

/-- The acceptance test of NEXTI in unbounded integers (R125): `bits − val + (bound − 1)` lies below `2^31`. -/
def AcceptedNat (bits bound : Nat) : Prop := bits - bits % bound + (bound - 1) < 2 ^ 31

/-- The binary32 pattern `p` denotes `k / 2^24` (R121): zero, or a normal number
`(2^23 + fraction) * 2^(exponent − 150)` with the sign bit clear. -/
def IsQuotientPattern (p : W32) (k : Nat) : Prop :=
  (k = 0 → p = 0) ∧
  (k ≠ 0 →
    p.toNat < 2 ^ 31 ∧ 0 < p.toNat / 2 ^ 23 ∧ p.toNat / 2 ^ 23 < 255 ∧
    (2 ^ 23 + p.toNat % 2 ^ 23) * 2 ^ (p.toNat / 2 ^ 23) = k * 2 ^ 126)

/-- `INV48` (R20): `STATE[63:48] = 0`. -/
def State.Inv48 (s : State) : Prop := s.stateReg.toNat < 2 ^ 48

/-- `PHASE = Advanced` only after a draw, and a draw ends in the mask (R20, R24, R90). -/
def State.AdvancedMasked (s : State) : Prop := s.phase = .advanced → s.Inv48

/-- The host gives SETST only masked values (R165, R166), at every input it has still to give. -/
def HostInput.masksSetst (p : Params) : HostInput → Prop
  | .reset => True
  | .command r => ∀ raw, decode p r = .ok (.setst raw) → raw.toNat < 2 ^ 48

/-- `STATE` is masked whenever a command may read it, and the host will keep it so (R20, R165). -/
def State.MaskedRun (s : State) : Prop :=
  (s.phase ≠ .uninitialized → s.Inv48) ∧ ∀ h ∈ s.inputs, h.masksSetst s.params

/-- The draws of the glossary (R19): NEXTB, NEXTL, NEXTF, NEXTIP, NEXTI. -/
def Instr.isDraw : Instr → Bool
  | .seed _ => false
  | .setst _ => false
  | .getst => false
  | .nextb _ => true
  | .nextl => true
  | .stepF _ _ _ _ _ => false
  | .stepR _ _ _ _ _ => false
  | .popseed _ _ _ => false
  | .decseed _ _ _ => false
  | .nextf => true
  | .nextip _ => true
  | .nexti _ => true

/-- The commands that read `STATE` (R25, R162): GETST and the draws. -/
def Instr.readsState (i : Instr) : Bool := decide (i = .getst) || Instr.isDraw i

/-- The commands that leave `STATE` and `PHASE` alone (R21, R24): GETST, STEP.F, STEP.R. -/
def Instr.keepsState : Instr → Bool
  | .seed _ => false
  | .setst _ => false
  | .getst => true
  | .nextb _ => false
  | .nextl => false
  | .stepF _ _ _ _ _ => true
  | .stepR _ _ _ _ _ => true
  | .popseed _ _ _ => false
  | .decseed _ _ _ => false
  | .nextf => false
  | .nextip _ => false
  | .nexti _ => false

/-- Which result ports a command answers on (R51, R53). -/
def Instr.answersWith : Instr → Response → Bool
  | .setst _, .none => true
  | .stepF _ _ _ _ _, .res01 _ _ => true
  | .stepR _ _ _ _ _, .res01 _ _ => true
  | .setst _, _ => false
  | .stepF _ _ _ _ _, _ => false
  | .stepR _ _ _ _ _, _ => false
  | _, .res0 _ => true
  | _, _ => false

/-- `UninitRead` for a command that reads `STATE`, when `PHASE = Uninitialized` (R25, R146). -/
def uninitRefusal (before : Phase) : Option Refusal :=
  if before = .uninitialized then some .uninitRead else none

/-- The table of R146 in the order of R143: the reason a command is refused, if it is. -/
def Instr.refusalReason (before : Phase) : Instr → Option Refusal
  | .seed _ => none
  | .setst _ => none
  | .getst => uninitRefusal before
  | .nextb n => if n.toNat = 0 ∨ 32 < n.toNat then some .bitsOutOfRange else uninitRefusal before
  | .nextl => uninitRefusal before
  | .stepF _ _ _ _ bits => if bits.toNat = 0 ∨ 48 < bits.toNat then some .bitsOutOfRange else none
  | .stepR _ _ _ _ bits => if bits.toNat = 0 ∨ 48 < bits.toNat then some .bitsOutOfRange else none
  | .popseed _ _ _ => none
  | .decseed _ _ _ => none
  | .nextf => uninitRefusal before
  | .nextip bound =>
    if bound.toInt ≤ 0 then some .boundNotPositive
    else if W32.isPow2 bound then uninitRefusal before
    else some .boundNotPowerOfTwo
  | .nexti bound => if bound.toInt ≤ 0 then some .boundNotPositive else uninitRefusal before

/-- The `PHASE` after a command that is not refused (the table of R24). -/
def Instr.phaseAfter (i : Instr) (before : Phase) : Phase :=
  if Instr.keepsState i then before else if Instr.isDraw i then .advanced else .seeded

/-- The two states differ at most in `STATE`. -/
def State.SameButStateReg (s t : State) : Prop := t = { s with stateReg := t.stateReg }

/-- What the host sees of a step: the response or the refusal, and what the next command may depend on. Two outcomes
are the same to it when they are equal but for a `STATE` that no command may read. -/
def SameToHost : Result → Result → Prop
  | .next s, .next t => State.SameButStateReg s t ∧ (s.phase ≠ .uninitialized → s.stateReg = t.stateReg)
  | .refused a, .refused b => a = b
  | .fault a, .fault b => a = b
  | _, _ => False

end Sys2Proof.Machine
end

