-- ==== Sys2Proof/Certificates/Slice0/Obligations.lean ====
section
/-! DEFINITION. The statements for the provers, each with the rules it formalises. Registers' new values are stated in
unbounded integers (`lcgNat`, `toNat`, `toInt`), not by the operations the meanings use; `{ s with … }` states the frame:
every field it does not name is as it was. -/

open Sys2Proof Sys2Proof.Machine

/-! ## Reset and the step -/

/-- R34, R161. Right after reset, on any instance, `PHASE` is `Uninitialized`, every command that reads `STATE` is
refused, and the constants hold their values. Which instance `State.reset` is, the one with the default parameters, is
the model's choice (log entry 10). That the model holds 0 in `STATE` there is its own choice too (log entry 1), and
nothing here says it. -/
def Obligations.ResetIsUninitializedAndUnreadable : Prop :=
  State.reset = State.powerOn Params.standard ∧
  (∀ p : Params, (State.powerOn p).phase = .uninitialized ∧
    ∀ i : Instr, Instr.readsState i = true → i.operandsAdmitted = true →
      exec i (State.powerOn p) = .refused .uninitRead) ∧
  MULT.toNat = 25214903917 ∧ ADD.toNat = 11 ∧ MASK48.toNat = 281474976710655

/-- R45, R52. A step whose input is a command that decodes to `i` is `exec i` in the state with that input taken. -/
def Obligations.StepRunsTheDecodedCommand : Prop :=
  ∀ (s : State) (r : Request) (rest : List HostInput) (i : Instr),
    s.inputs = .command r :: rest → decode s.params r = .ok i →
      step s = exec i { s with inputs := rest }

/-- R163; that a step without an input changes nothing is the model's choice (log entry 4). -/
def Obligations.StepWithoutInputChangesNothing : Prop :=
  ∀ s : State, s.inputs = [] → step s = .next s

/-- R160. Reset puts `PHASE` to `Uninitialized` and leaves `STATE` unspecified: some value, of which nothing is
said; the parameters stay (R30). That `freeCount` advances is the model's choice (log entry 2), and so is that the
host's two lists, which are not the block's, outlive a reset (log entry 4). -/
def Obligations.ResetInputUninitializes : Prop :=
  ∀ (s : State) (rest : List HostInput), s.inputs = .reset :: rest →
    ∃ g : Word, step s =
      .next { s with
        stateReg := g, phase := .uninitialized, inputs := rest, freeCount := s.freeCount + 1 }

/-- R45, R168, R30. A step takes exactly the first input, delivers at most one response, after all earlier ones,
and leaves the parameters alone. -/
def Obligations.StepTakesOneInputInOrder : Prop :=
  ∀ s t : State, step s = .next t →
    t.inputs = s.inputs.tail ∧ t.params = s.params ∧
    ∃ new : List Response, t.responses = s.responses ++ new ∧ new.length ≤ 1

/-! ## seed_xor_scrambler and the accessors -/

/-- R80, R81. -/
def Obligations.SeedScramblesAndReturnsTheState : Prop :=
  ∀ (raw : Word) (s : State),
    (encode (.seed raw)).cmd = 0x0001 ∧
    exec (.seed raw) s =
      .next { s with
        stateReg := BitVec.ofNat 64 (scrambleNat raw)
        phase := .seeded
        responses := s.responses ++ [.res0 (BitVec.ofNat 64 (scrambleNat raw))] }

/-- R82. -/
def Obligations.SetstStoresAllBits : Prop :=
  ∀ (raw : Word) (s : State),
    (encode (.setst raw)).cmd = 0x0002 ∧
    exec (.setst raw) s =
      .next { s with stateReg := raw, phase := .seeded, responses := s.responses ++ [.none] }

/-- R83. -/
def Obligations.GetstReturnsTheState : Prop :=
  ∀ s : State,
    (encode .getst).cmd = 0x0003 ∧
    (s.phase = .uninitialized → exec .getst s = .refused .uninitRead) ∧
    (s.phase ≠ .uninitialized →
      exec .getst s = .next { s with responses := s.responses ++ [.res0 s.stateReg] })

/-- R84, and the same of SETST (R82). -/
def Obligations.GetstReadsBackSeedAndSetst : Prop :=
  ∀ (v : Word) (s t : State),
    (exec (.seed v) s = .next t →
      exec .getst t =
        .next { t with responses := t.responses ++ [.res0 ((v ^^^ 0x5DEECE66D) &&& 0xFFFFFFFFFFFF)] }) ∧
    (exec (.setst v) s = .next t →
      exec .getst t = .next { t with responses := t.responses ++ [.res0 v] })

/-- The facts the spec itself derives from R80 (40_seed_xor_scrambler.md, section 5). Seeding with a seeded state
gives back a 48-bit raw seed; a seeded state gives the low 48 bits of its raw seed; two raw seeds give one state
exactly when their low 48 bits agree. -/
def Obligations.SeedingIsAnInvolutionOnLow48Bits : Prop :=
  ∀ (a b : Word) (s t u : State), exec (.seed a) s = .next t →
    (a.toNat < 2 ^ 48 → exec (.seed t.stateReg) t = .next u → u.stateReg = a) ∧
    (t.stateReg ^^^ 0x5DEECE66D).toNat = a.toNat % 2 ^ 48 ∧
    (exec (.seed b) s = .next u →
      (t.stateReg = u.stateReg ↔ a.toNat % 2 ^ 48 = b.toNat % 2 ^ 48))

/-! ## lcg_state_stepper -/

/-- R91, with the new `STATE` of R90 in unbounded integers. -/
def Obligations.NextbStepsAndReturnsTopBits : Prop :=
  ∀ (n : BitCount) (s : State),
    (encode (.nextb n)).cmd.toNat = 4 + 16 * n.toNat ∧
    (n.toNat = 0 ∨ 32 < n.toNat → exec (.nextb n) s = .refused .bitsOutOfRange) ∧
    (1 ≤ n.toNat → n.toNat ≤ 32 → s.phase = .uninitialized →
      exec (.nextb n) s = .refused .uninitRead) ∧
    (1 ≤ n.toNat → n.toNat ≤ 32 → s.phase ≠ .uninitialized →
      exec (.nextb n) s =
        .next { s with
          stateReg := BitVec.ofNat 64 (lcgNat s.stateReg.toNat)
          phase := .advanced
          responses := s.responses ++
            [.res0 ((BitVec.ofNat 32 (topNat n.toNat (lcgNat s.stateReg.toNat))).signExtend 64)] })

/-- R90. For `n ≤ 31` the `i32` result is `unsigned(STATE[47:48−n])`, so non-negative and below `2^n`; for `n = 32`
it is negative exactly when bit 47 of the new `STATE` is 1. -/
def Obligations.NextbResultIsUnsignedBelow32Bits : Prop :=
  ∀ (n : BitCount) (s t : State), exec (.nextb n) s = .next t →
    ∃ r : Word, t.responses = s.responses ++ [.res0 r] ∧
      (n.toNat ≤ 31 → r.toNat = t.stateReg.toNat / 2 ^ (48 - n.toNat) ∧ r.toNat < 2 ^ n.toNat) ∧
      (n.toNat = 32 → (r.toInt < 0 ↔ t.stateReg.getLsbD 47 = true) ∧
        -(2 ^ 31) ≤ r.toInt ∧ r.toInt < 2 ^ 31)

/-- R92. -/
def Obligations.NextlTakesTwoSteps : Prop :=
  ∀ s : State,
    (encode .nextl).cmd = 0x0005 ∧
    (s.phase = .uninitialized → exec .nextl s = .refused .uninitRead) ∧
    (s.phase ≠ .uninitialized →
      exec .nextl s =
        .next { s with
          stateReg := BitVec.ofNat 64 (lcgIter 2 s.stateReg.toNat)
          phase := .advanced
          responses := s.responses ++ [.res0 (BitVec.ofInt 64 (longInt s.stateReg.toNat))] })

/-- R92, corner cases: a negative low half borrows one from the high half, and a non-negative one does not. -/
def Obligations.NextlNegativeLowHalfBorrows : Prop :=
  ∀ s t : State, exec .nextl s = .next t →
    ∃ r : Word, t.responses = s.responses ++ [.res0 r] ∧
      r.toNat % 2 ^ 32 = topNat 32 (lcgIter 2 s.stateReg.toNat) ∧
      (topNat 32 (lcgIter 2 s.stateReg.toNat) < 2 ^ 31 →
        r.toNat / 2 ^ 32 = topNat 32 (lcgNat s.stateReg.toNat)) ∧
      (2 ^ 31 ≤ topNat 32 (lcgIter 2 s.stateReg.toNat) →
        r.toNat / 2 ^ 32 = (topNat 32 (lcgNat s.stateReg.toNat) + (2 ^ 32 - 1)) % 2 ^ 32)

/-- R94, R96, R97, R99, with the shift of R98 under each `SHIFT_KIND`. -/
def Obligations.StepForwardComputesItsFormula : Prop :=
  ∀ (state multiplier increment mask : Word) (bits : BitCount) (s : State),
    (encode (.stepF state multiplier increment mask bits)).cmd.toNat = 0x0006 + 16 * bits.toNat ∧
    (bits.toNat = 0 ∨ 48 < bits.toNat →
      exec (.stepF state multiplier increment mask bits) s = .refused .bitsOutOfRange) ∧
    (1 ≤ bits.toNat → bits.toNat ≤ 48 →
      ∃ newState extr : Word,
        newState = BitVec.ofNat 64 (state.toNat * multiplier.toNat + increment.toNat) &&& mask ∧
        (s.params.shiftKind = .arithmetic →
          extr = BitVec.ofInt 64 (newState.toInt / 2 ^ (48 - bits.toNat))) ∧
        (s.params.shiftKind = .logical →
          extr = BitVec.ofNat 64 (newState.toNat / 2 ^ (48 - bits.toNat))) ∧
        exec (.stepF state multiplier increment mask bits) s =
          .next { s with responses := s.responses ++ [.res01 newState extr] })

/-- R95, R96, R97, R99, R102, with the shift of R98 under each `SHIFT_KIND`: no check of the multiplier. -/
def Obligations.StepReverseComputesItsFormula : Prop :=
  ∀ (state multiplier increment mask : Word) (bits : BitCount) (s : State),
    (encode (.stepR state multiplier increment mask bits)).cmd.toNat = 0x0406 + 16 * bits.toNat ∧
    (bits.toNat = 0 ∨ 48 < bits.toNat →
      exec (.stepR state multiplier increment mask bits) s = .refused .bitsOutOfRange) ∧
    (1 ≤ bits.toNat → bits.toNat ≤ 48 →
      ∃ newState extr : Word,
        newState = BitVec.ofInt 64 ((state.toInt - increment.toInt) * multiplier.toInt) &&& mask ∧
        (s.params.shiftKind = .arithmetic →
          extr = BitVec.ofInt 64 (newState.toInt / 2 ^ (48 - bits.toNat))) ∧
        (s.params.shiftKind = .logical →
          extr = BitVec.ofNat 64 (newState.toNat / 2 ^ (48 - bits.toNat))) ∧
        exec (.stepR state multiplier increment mask bits) s =
          .next { s with responses := s.responses ++ [.res01 newState extr] })

/-- R98. With bit 63 of the mask 0, STEP's response is the same under both kinds of shift. -/
def Obligations.ShiftKindsAgreeBelowBit63 : Prop :=
  ∀ (state multiplier increment mask : Word) (bits : BitCount) (s : State),
    mask.getLsbD 63 = false → 1 ≤ bits.toNat → bits.toNat ≤ 48 →
      (∃ r : Response, ∀ kind : ShiftKind,
        exec (.stepF state multiplier increment mask bits)
            { s with params := { s.params with shiftKind := kind } } =
          .next { s with
            params := { s.params with shiftKind := kind }, responses := s.responses ++ [r] }) ∧
      (∃ r : Response, ∀ kind : ShiftKind,
        exec (.stepR state multiplier increment mask bits)
            { s with params := { s.params with shiftKind := kind } } =
          .next { s with
            params := { s.params with shiftKind := kind }, responses := s.responses ++ [r] })

/-- The round trip of 41_lcg_state_stepper.md, section 5, in the general form the spec itself derives from R94 and
R95. For a mask `2^k − 1` and multipliers inverse modulo `2^k`, or modulo `2^48` when `k ≤ 48`, STEP.R undoes
STEP.F and STEP.F undoes STEP.R, on every state within the mask. -/
def Obligations.ForwardAndReverseStepsUndoEachOther : Prop :=
  ∀ (k : Nat) (m m' c x : Word) (b b' : BitCount) (s : State),
    1 ≤ k → k ≤ 64 →
    (m.toNat * m'.toNat % 2 ^ k = 1 ∨ (k ≤ 48 ∧ m.toNat * m'.toNat % 2 ^ 48 = 1)) →
    x.toNat < 2 ^ k →
    1 ≤ b.toNat → b.toNat ≤ 48 → 1 ≤ b'.toNat → b'.toNat ≤ 48 →
      (∃ y e e' : Word,
        exec (.stepF x m c (BitVec.ofNat 64 (2 ^ k - 1)) b) s =
          .next { s with responses := s.responses ++ [.res01 y e] } ∧
        exec (.stepR y m' c (BitVec.ofNat 64 (2 ^ k - 1)) b') s =
          .next { s with responses := s.responses ++ [.res01 x e'] }) ∧
      (∃ y e e' : Word,
        exec (.stepR x m' c (BitVec.ofNat 64 (2 ^ k - 1)) b) s =
          .next { s with responses := s.responses ++ [.res01 y e] } ∧
        exec (.stepF y m c (BitVec.ofNat 64 (2 ^ k - 1)) b') s =
          .next { s with responses := s.responses ++ [.res01 x e'] })

/-- What the spec itself derives from R90, R94 and R99 (41_lcg_state_stepper.md, section 5). STEP.F with the canonical
parameters returns the `STATE` NEXTB leaves, and bits whose low 32 are NEXTB's. -/
def Obligations.StepForwardGeneralizesNextb : Prop :=
  ∀ (n : BitCount) (s : State),
    1 ≤ n.toNat → n.toNat ≤ 32 → s.phase ≠ .uninitialized →
      ∃ g r e : Word,
        exec (.nextb n) s =
          .next { s with stateReg := g, phase := .advanced, responses := s.responses ++ [.res0 r] } ∧
        exec (.stepF s.stateReg 0x5DEECE66D 0xB 0xFFFFFFFFFFFF n) s =
          .next { s with responses := s.responses ++ [.res01 g e] } ∧
        e.setWidth 32 = r.setWidth 32

/-- What the spec itself derives of undoing a canonical draw, with the inverse it computes (41_lcg_state_stepper.md,
section 5). From the state after any number of canonical steps, STEP.R with the canonical inverse returns the
state before the last of them. -/
def Obligations.ReverseStepUndoesCanonicalDraws : Prop :=
  ∀ (k x : Nat) (b : BitCount) (s : State), x < 2 ^ 48 → 1 ≤ b.toNat → b.toNat ≤ 48 →
    ∃ e : Word,
      exec (.stepR (BitVec.ofNat 64 (lcgIter (k + 1) x)) 0xDFE05BCB1365 0xB 0xFFFFFFFFFFFF b) s =
        .next { s with responses := s.responses ++ [.res01 (BitVec.ofNat 64 (lcgIter k x)) e] }

/-! ## coord_seed_mixer -/

/-- R110. -/
def Obligations.PopseedMixesFourCanonicalSteps : Prop :=
  ∀ (worldSeed : Word) (x z : W32) (s : State),
    (encode (.popseed worldSeed x z)).cmd = 0x0007 ∧
    ∃ s1 s2 derived : Word,
      s1 = BitVec.ofInt 64 (longInt (scrambleNat worldSeed)) ||| 1 ∧
      s2 = BitVec.ofInt 64 (longInt (lcgIter 2 (scrambleNat worldSeed))) ||| 1 ∧
      derived = BitVec.ofInt 64 (s1.toInt * x.toInt + s2.toInt * z.toInt) ^^^ worldSeed ∧
      exec (.popseed worldSeed x z) s =
        .next { s with
          stateReg := BitVec.ofNat 64 (scrambleNat derived)
          phase := .seeded
          responses := s.responses ++ [.res0 derived] }

/-- R111. -/
def Obligations.DecseedAddsAndReseeds : Prop :=
  ∀ (seed : Word) (index stepIndex : W16) (s : State),
    (encode (.decseed seed index stepIndex)).cmd = 0x0008 ∧
    ∃ derived : Word,
      derived = BitVec.ofInt 64 (seed.toInt + index.toInt + 10000 * stepIndex.toInt) ∧
      exec (.decseed seed index stepIndex) s =
        .next { s with
          stateReg := BitVec.ofNat 64 (scrambleNat derived)
          phase := .seeded
          responses := s.responses ++ [.res0 derived] }

/-- What the spec itself derives from R110 and R111 (42_coord_seed_mixer.md, section 3). What POPSEED and DECSEED do
is the same from any prior `STATE` and any `PHASE`. -/
def Obligations.MixersIgnoreThePriorState : Prop :=
  ∀ (worldSeed seed g : Word) (x z : W32) (index stepIndex : W16) (ph : Phase) (s : State),
    exec (.popseed worldSeed x z) { s with stateReg := g, phase := ph } =
      exec (.popseed worldSeed x z) s ∧
    exec (.decseed seed index stepIndex) { s with stateReg := g, phase := ph } =
      exec (.decseed seed index stepIndex) s

/-- R112. The value POPSEED and DECSEED return is all 64 bits of the formula's (R110, R111), not masked, while `STATE`
holds its scramble, 48 bits: but for the response the instance is as after SEED of the returned value. -/
def Obligations.MixersReturnUnmaskedAndSeedMasked : Prop :=
  ∀ (i : Instr) (derived : Word) (s : State),
    ((∃ (worldSeed : Word) (x z : W32), i = .popseed worldSeed x z ∧
        derived = BitVec.ofInt 64
          ((BitVec.ofInt 64 (longInt (scrambleNat worldSeed)) ||| 1).toInt * x.toInt
            + (BitVec.ofInt 64 (longInt (lcgIter 2 (scrambleNat worldSeed))) ||| 1).toInt * z.toInt)
          ^^^ worldSeed) ∨
      (∃ (seed : Word) (index stepIndex : W16), i = .decseed seed index stepIndex ∧
        derived = BitVec.ofInt 64 (seed.toInt + index.toInt + 10000 * stepIndex.toInt))) →
      ∃ u : State,
        exec (.seed derived) s = .next u ∧
        u.stateReg.toNat = scrambleNat derived ∧ u.stateReg.toNat < 2 ^ 48 ∧
        exec i s = .next { u with responses := s.responses ++ [.res0 derived] }

/-- R110, R111, corner cases: with zero coordinates or indices the derived seed is the seed itself. -/
def Obligations.MixersWithZeroOperandsAreSeed : Prop :=
  ∀ (v : Word) (s : State),
    ∃ u : State, exec (.seed v) s = .next u ∧
      exec (.popseed v 0 0) s = .next { u with responses := s.responses ++ [.res0 v] } ∧
      exec (.decseed v 0 0) s = .next { u with responses := s.responses ++ [.res0 v] }

/-! ## derived draws -/

/-- R122. That an `f32` is a binary32 pattern is PRESUMED (log entry 9): the spec has the format "from general
knowledge, not in source". -/
def Obligations.NextfReturnsTheQuotientPattern : Prop :=
  ∀ s : State,
    (encode .nextf).cmd = 0x0009 ∧
    (s.phase = .uninitialized → exec .nextf s = .refused .uninitRead) ∧
    (s.phase ≠ .uninitialized →
      ∃ p : W32, IsQuotientPattern p (topNat 24 (lcgNat s.stateReg.toNat)) ∧
        exec .nextf s =
          .next { s with
            stateReg := BitVec.ofNat 64 (lcgNat s.stateReg.toNat)
            phase := .advanced
            responses := s.responses ++ [.res0 (p.setWidth 64)] })

/-- R122. That an `f32` is a binary32 pattern is PRESUMED (log entry 9). Every result of NEXTF is a pattern from
`+0.0` to `0x3F7FFFFF`, the largest number below 1, and none is subnormal. -/
def Obligations.NextfStaysBelowOne : Prop :=
  ∀ s t : State, exec .nextf s = .next t →
    ∃ r : Word, t.responses = s.responses ++ [.res0 r] ∧ r.toNat ≤ 0x3F7FFFFF ∧
      (r.toNat = 0 ∨ 0x33800000 ≤ r.toNat)

/-- R123. -/
def Obligations.NextipScalesTheTopBits : Prop :=
  ∀ (bound : W32) (s : State),
    (encode (.nextip bound)).cmd = 0x000A ∧
    (bound.toInt ≤ 0 → exec (.nextip bound) s = .refused .boundNotPositive) ∧
    (0 < bound.toInt → (¬ ∃ j, j ≤ 30 ∧ bound.toNat = 2 ^ j) →
      exec (.nextip bound) s = .refused .boundNotPowerOfTwo) ∧
    (∀ j, j ≤ 30 → bound.toNat = 2 ^ j → s.phase = .uninitialized →
      exec (.nextip bound) s = .refused .uninitRead) ∧
    (∀ j, j ≤ 30 → bound.toNat = 2 ^ j → s.phase ≠ .uninitialized →
      exec (.nextip bound) s =
        .next { s with
          stateReg := BitVec.ofNat 64 (lcgNat s.stateReg.toNat)
          phase := .advanced
          responses := s.responses ++
            [.res0 (BitVec.ofNat 64
              (bound.toNat * topNat 31 (lcgNat s.stateReg.toNat) / 2 ^ 31))] })

/-- R124. If the first `m` draws are rejected and the next accepted, NEXTI returns the remainder of that draw and
leaves the state after it, whatever `m` is: no cap. (`NextiAlwaysEnds` says that such an `m` exists.) -/
def Obligations.NextiReturnsTheFirstAcceptedDraw : Prop :=
  ∀ (bound : W32) (s : State),
    (encode (.nexti bound)).cmd = 0x000B ∧
    (bound.toInt ≤ 0 → exec (.nexti bound) s = .refused .boundNotPositive) ∧
    (0 < bound.toInt → s.phase = .uninitialized → exec (.nexti bound) s = .refused .uninitRead) ∧
    (∀ m : Nat, 0 < bound.toInt → s.phase ≠ .uninitialized →
      (∀ j, j < m → ¬ AcceptedNat (topNat 31 (lcgIter (j + 1) s.stateReg.toNat)) bound.toNat) →
      AcceptedNat (topNat 31 (lcgIter (m + 1) s.stateReg.toNat)) bound.toNat →
        exec (.nexti bound) s =
          .next { s with
            stateReg := BitVec.ofNat 64 (lcgIter (m + 1) s.stateReg.toNat)
            phase := .advanced
            responses := s.responses ++
              [.res0 (BitVec.ofNat 64 (topNat 31 (lcgIter (m + 1) s.stateReg.toNat) % bound.toNat))] })

/-- The rejection loop ends, uncapped, from every state and for every legal bound: the canonical step visits
all `2^48` states, among them one whose draw is 0. (The spec gives this as general knowledge, "not in source", in
43_derived_draws.md, section 4; here it is to be proved of the model, whose fuel, log entry 7, DEDUCED, it shows to be
no cap.) -/
def Obligations.NextiAlwaysEnds : Prop :=
  ∀ (bound : W32) (s : State), 0 < bound.toInt → s.phase ≠ .uninitialized →
    ∃ (m : Nat) (t : State), m < 2 ^ 48 ∧
      AcceptedNat (topNat 31 (lcgIter (m + 1) s.stateReg.toNat)) bound.toNat ∧
      exec (.nexti bound) s = .next t

/-- R125. The exact sum lies in `[0, 2^32 − 3]`, so the 32-bit result is that sum and reads as negative exactly when
the sum reaches `2^31`: the draw is rejected exactly when `bits − val + bound > 2^31`, that is, when the bound's block
that contains `bits` does not lie wholly below `2^31`, that is, when `bits` is at or above the last whole multiple of
the bound. -/
def Obligations.AcceptanceTestIsTheIntegerCondition : Prop :=
  ∀ (bits bound : W32), bits.toNat < 2 ^ 31 → 0 < bound.toInt →
    bits.toNat - bits.toNat % bound.toNat + (bound.toNat - 1) ≤ 2 ^ 32 - 3 ∧
    (drawTest bits (bits % bound) bound).toNat =
      bits.toNat - bits.toNat % bound.toNat + (bound.toNat - 1) ∧
    (drawAccepted bits (bits % bound) bound = false ↔
      2 ^ 31 ≤ bits.toNat - bits.toNat % bound.toNat + (bound.toNat - 1)) ∧
    (drawAccepted bits (bits % bound) bound = false ↔
      2 ^ 31 < bits.toNat - bits.toNat % bound.toNat + bound.toNat) ∧
    (drawAccepted bits (bits % bound) bound = false ↔
      2 ^ 31 / bound.toNat * bound.toNat ≤ bits.toNat)

/-- What the spec itself derives from R125 (43_derived_draws.md, section 4). `2^31 mod bound` of the `2^31` draws are
rejected, so none for a power of two. -/
def Obligations.RejectedDrawsCountIsRemainder : Prop :=
  ∀ bound : W32, 0 < bound.toInt →
    ((Finset.range (2 ^ 31)).filter fun b =>
      drawAccepted (BitVec.ofNat 32 b) (BitVec.ofNat 32 b % bound) bound = false).card =
        2 ^ 31 % bound.toNat

/-- R127. -/
def Obligations.BoundedDrawsStayInRange : Prop :=
  ∀ (bound : W32) (i : Instr) (s t : State),
    (i = .nextip bound ∨ i = .nexti bound) → exec i s = .next t →
      ∃ r : Word, t.responses = s.responses ++ [.res0 r] ∧ 0 ≤ r.toInt ∧ r.toInt < bound.toInt

/-- What the spec itself derives from R123 and R124 (43_derived_draws.md, section 4). For `bound = 2^j` both paths
take one step and leave one `STATE`; NEXTIP returns the top `j` and NEXTI the bottom `j` of the 31 drawn bits. -/
def Obligations.BoundedDrawPathsOnPowersOfTwo : Prop :=
  ∀ (j : Nat) (bound : W32) (s : State), j ≤ 30 → bound.toNat = 2 ^ j → s.phase ≠ .uninitialized →
    ∃ (g : Word) (bits : Nat), g.toNat = lcgNat s.stateReg.toNat ∧ bits = g.toNat / 2 ^ 17 ∧
      exec (.nextip bound) s =
        .next { s with
          stateReg := g, phase := .advanced
          responses := s.responses ++ [.res0 (BitVec.ofNat 64 (bits / 2 ^ (31 - j)))] } ∧
      exec (.nexti bound) s =
        .next { s with
          stateReg := g, phase := .advanced
          responses := s.responses ++ [.res0 (BitVec.ofNat 64 (bits % 2 ^ j))] }

/-! ## PHASE, refusals, frames -/

/-- R24. The table's rows of the commands, of the refused commands that read `STATE`, of reset, and of any refused
command. -/
def Obligations.PhaseFollowsTheTable : Prop :=
  (∀ (i : Instr) (s t : State), exec i s = .next t → t.phase = Instr.phaseAfter i s.phase) ∧
  (∀ (i : Instr) (s : State), Instr.readsState i = true → s.phase = .uninitialized →
    i.operandsAdmitted = true → exec i s = .refused .uninitRead) ∧
  (∀ (s t : State) (rest : List HostInput), s.inputs = .reset :: rest → step s = .next t →
    t.phase = .uninitialized) ∧
  (∀ (r : Run) (why : Refusal), step r.state = .refused why → r.advance.state.phase = r.state.phase)

/-- R25. The distinction between `Seeded` and `Advanced` changes no result of any command. -/
def Obligations.SeededAndAdvancedGiveTheSameResults : Prop :=
  ∀ (i : Instr) (s : State), s.phase = .seeded →
    (∀ t : State, exec i s = .next t →
      exec i { s with phase := .advanced } = .next { t with phase := Instr.phaseAfter i .advanced }) ∧
    (∀ why : Refusal, exec i s = .refused why ↔
      exec i { s with phase := .advanced } = .refused why)

/-- R143, with the reasons of R146. A command is refused exactly when the table gives a reason, with the first reason in
the fixed order; a step's request is refused as a reserved encoding before any of them. -/
def Obligations.RefusalsAreExactlyTheTable : Prop :=
  (∀ (i : Instr) (s : State) (why : Refusal),
    exec i s = .refused why ↔ Instr.refusalReason s.phase i = some why) ∧
  (∀ (s : State) (r : Request) (rest : List HostInput) (why : Refusal), s.inputs = .command r :: rest →
    (step s = .refused why ↔
      ((∃ ground : Reserved, decode s.params r = .error ground) ∧ why = .reservedEncoding) ∨
        ∃ i : Instr, decode s.params r = .ok i ∧ Instr.refusalReason s.phase i = some why))

/-- R146, R166. Every command completes exactly when its operands are admitted and, if it reads `STATE`, something
has been written there. That NEXTI completes whenever it is admitted is no rule of the spec: its loop ends from every
state only as "general knowledge, not in source" (43_derived_draws.md, section 4), which C4 does not assert; it is
DEDUCED of the model (log entry 7), and `NextiAlwaysEnds` says it. -/
def Obligations.CommandsCompleteExactlyWhenAdmitted : Prop :=
  ∀ (i : Instr) (s : State),
    (∃ t : State, exec i s = .next t) ↔
      (i.operandsAdmitted = true ∧ (Instr.readsState i = true → s.phase ≠ .uninitialized))

/-- R140, R146. Every outcome is a next state or a refusal for a reason of the closed list: no fault, no command without
a meaning, and no refusal of the model's own. That NEXTI's loop is never cut short is DEDUCED of the model (log entry
7), from what the spec has as "general knowledge, not in source" (43_derived_draws.md, section 4). -/
def Obligations.OutcomesAreNextStatesOrListedRefusals : Prop :=
  (∀ (i : Instr) (s : State),
    (∃ t : State, exec i s = .next t) ∨
      ∃ why : Refusal, exec i s = .refused why ∧
        (why = .bitsOutOfRange ∨ why = .boundNotPositive ∨ why = .boundNotPowerOfTwo ∨ why = .uninitRead)) ∧
  ∀ s : State,
    (∃ t : State, step s = .next t) ∨
      ∃ why : Refusal, step s = .refused why ∧
        (why = .reservedEncoding ∨ why = .bitsOutOfRange ∨ why = .boundNotPositive ∨
          why = .boundNotPowerOfTwo ∨ why = .uninitRead)

/-- R51, R53. A command that is not refused delivers exactly one response, with exactly the result ports its format
names, and leaves the parameters, the host's further inputs and the free values alone. -/
def Obligations.EveryCommandDeliversItsOneResponse : Prop :=
  ∀ (i : Instr) (s t : State), exec i s = .next t →
    t.params = s.params ∧ t.inputs = s.inputs ∧ t.freeCount = s.freeCount ∧
    ∃ r : Response, t.responses = s.responses ++ [r] ∧ Instr.answersWith i r = true

/-- R21. GETST, STEP.F and STEP.R write neither `STATE` nor `PHASE`. -/
def Obligations.OnlyTheListedWritersChangeState : Prop :=
  ∀ (i : Instr) (s t : State), exec i s = .next t →
    (t.stateReg ≠ s.stateReg ∨ t.phase ≠ s.phase) →
      i ≠ .getst ∧ (∀ g m c k b, i ≠ .stepF g m c k b ∧ i ≠ .stepR g m c k b)

/-- R20. Every command that writes `STATE`, SETST excepted, establishes `INV48`. -/
def Obligations.WritersOtherThanSetstMaskTheState : Prop :=
  ∀ (i : Instr) (s t : State), exec i s = .next t →
    (∀ raw, i ≠ .setst raw) → Instr.keepsState i = false → t.Inv48

/-- What the spec itself derives from R20 and R90 (10_state.md, section 6). What a draw does depends on `STATE[47:0]`
alone, also where `INV48` does not hold. -/
def Obligations.DrawsDependOnLow48BitsOnly : Prop :=
  ∀ (i : Instr) (g : Word) (s : State), Instr.isDraw i = true →
    g.toNat % 2 ^ 48 = s.stateReg.toNat % 2 ^ 48 → exec i { s with stateReg := g } = exec i s

/-- R43. Every command other than the draws is idempotent: issued again it leaves the same `STATE` and `PHASE` and
returns the same result. -/
def Obligations.CommandsOtherThanDrawsAreIdempotent : Prop :=
  ∀ (i : Instr) (s t : State), Instr.isDraw i = false → exec i s = .next t →
    ∃ r : Response, t.responses = s.responses ++ [r] ∧
      exec i t = .next { t with responses := t.responses ++ [r] }

/-- R34, R25, U8. While `PHASE = Uninitialized` nothing a host can see depends on `STATE`: whatever it holds, a step
gives the same outcome, but for a `STATE` that is still unreadable. -/
def Obligations.UninitializedStateIsUnobservable : Prop :=
  ∀ (g : Word) (s : State), s.phase = .uninitialized →
    SameToHost (step s) (step { s with stateReg := g })

/-- R146. A refused command changes neither `STATE` nor `PHASE` and gives no response; the mark is kept for the rest
of the run. -/
def Obligations.RefusedCommandChangesNothingAndMarks : Prop :=
  ∀ (r : Run) (why : Refusal),
    (step r.state = .refused why →
      r.advance = ⟨{ r.state with inputs := r.state.inputs.tail }, r.refusals ++ [why]⟩) ∧
    (∀ k : Nat, (step r.state = .refused why ∨ r.marked = true) →
      (Run.advances (k + 1) r).marked = true)

/-! ## invariants -/

/-- R20, R24, R90. Every step keeps: in `Advanced`, `STATE[63:48] = 0`. -/
def Obligations.StepKeepsAdvancedMasked : Prop :=
  ∀ s t : State, s.AdvancedMasked → step s = .next t → t.AdvancedMasked

/-- R161. -/
def Obligations.ResetIsAdvancedMasked : Prop :=
  ∀ p : Params, (State.powerOn p).AdvancedMasked

/-- R20, R165. If the host gives SETST only masked values, every step keeps `INV48` wherever `STATE` may be read. -/
def Obligations.StepKeepsMaskedRun : Prop :=
  ∀ s t : State, s.MaskedRun → step s = .next t → t.MaskedRun

/-- R161, R165: a reset instance whose host gives SETST only masked values. -/
def Obligations.ResetIsMaskedRun : Prop :=
  ∀ (p : Params) (program : List HostInput), (∀ h ∈ program, h.masksSetst p) →
    State.MaskedRun { State.powerOn p with inputs := program }

/-! ## encoding -/

/-- R67. Encode followed by decode is the identity on every command of the instance, with every operand at every
value. -/
def Obligations.DecodeOfEncodeIsIdentity : Prop :=
  ∀ (p : Params) (i : Instr), i.wellFormed p = true → decode p (encode i) = .ok i

/-- R67. Decode followed by encode keeps `CMD` and only clears bits of the ports. -/
def Obligations.EncodeOfDecodeClearsIgnoredBits : Prop :=
  ∀ (p : Params) (r : Request) (i : Instr), decode p r = .ok i →
    i.wellFormed p = true ∧
    (encode i).cmd = r.cmd ∧
    ∃ ka kb kc kd : Word,
      (encode i).opa = r.opa &&& ka ∧ (encode i).opb = r.opb &&& kb ∧
      (encode i).opc = r.opc &&& kc ∧ (encode i).opd = r.opd &&& kd ∧
      (ka = 0 ∨ ka = 0xFFFFFFFF ∨ ka = 0xFFFFFFFFFFFFFFFF) ∧
      (kb = 0 ∨ kb = 0xFFFF ∨ kb = 0xFFFFFFFF ∨ kb = 0xFFFFFFFFFFFFFFFF) ∧
      (kc = 0 ∨ kc = 0xFFFF ∨ kc = 0xFFFFFFFF ∨ kc = 0xFFFFFFFFFFFFFFFF) ∧
      (kd = 0 ∨ kd = 0xFFFFFFFFFFFFFFFF)

/-- The matches and masks the spec itself derives from R52 and R56 (30_encoding.md, sections 4 and 5). A word decodes
as a command exactly when it meets that command's match and mask, and no word meets two rows. -/
def Obligations.DecoderIsTheMatchMaskTable : Prop :=
  (∀ (p : Params) (r : Request) (i : Instr), decode p r = .ok i →
    r.cmd &&& (matchMask i).2 = (matchMask i).1) ∧
  (∀ (p : Params) (r : Request) (i : Instr), i.wellFormed p = true →
    r.cmd &&& (matchMask i).2 = (matchMask i).1 →
      ∃ j : Instr, decode p r = .ok j ∧ matchMask j = matchMask i) ∧
  (∀ (i j : Instr) (w : CmdWord), w &&& (matchMask i).2 = (matchMask i).1 →
    w &&& (matchMask j).2 = (matchMask j).1 → matchMask i = matchMask j)

/-- R61. The reserved encodings, by the fields' numbers, and the step that refuses them. -/
def Obligations.ReservedEncodingsAreExactlyR61 : Prop :=
  ∀ (s : State) (r : Request) (rest : List HostInput), s.inputs = .command r :: rest →
    ((∃ why : Reserved, decode s.params r = .error why) ↔
      (r.cmd.toNat % 16 = 0 ∨ 12 ≤ r.cmd.toNat % 16 ∨
        r.cmd.toNat / 2048 ≠ 0 ∨
        (r.cmd.toNat / 1024 % 2 = 1 ∧ r.cmd.toNat % 16 ≠ 6) ∨
        (r.cmd.toNat / 16 % 64 ≠ 0 ∧ r.cmd.toNat % 16 ≠ 4 ∧ r.cmd.toNat % 16 ≠ 6) ∨
        (9 ≤ r.cmd.toNat % 16 ∧ r.cmd.toNat % 16 ≤ 11 ∧ s.params.hasDraws = false))) ∧
    ((∃ why : Reserved, decode s.params r = .error why) → step s = .refused .reservedEncoding)

/-- R62. Without `HAS_DRAWS` opcodes 9 to 11 are reserved, and no other word decodes otherwise than with it. -/
def Obligations.HasDrawsGovernsOpcodes9To11Only : Prop :=
  ∀ (p q : Params) (r : Request),
    (9 ≤ r.cmd.toNat % 16 → r.cmd.toNat % 16 ≤ 11 → p.hasDraws = false →
      ∃ why : Reserved, decode p r = .error why) ∧
    (r.cmd.toNat % 16 < 9 ∨ 11 < r.cmd.toNat % 16 → decode p r = decode q r)

/-- R50, R54. The ports a format does not name, and the bits above a narrow operand, are ignored. -/
def Obligations.UnusedPortBitsAreIgnored : Prop :=
  ∀ (p : Params) (r q : Request), r.cmd = q.cmd →
    (r.cmd.toNat % 16 = 3 ∨ r.cmd.toNat % 16 = 4 ∨ r.cmd.toNat % 16 = 5 ∨ r.cmd.toNat % 16 = 9 →
      decode p r = decode p q) ∧
    (r.cmd.toNat % 16 = 1 ∨ r.cmd.toNat % 16 = 2 → r.opa = q.opa → decode p r = decode p q) ∧
    (r.cmd.toNat % 16 = 10 ∨ r.cmd.toNat % 16 = 11 → r.opa.toNat % 2 ^ 32 = q.opa.toNat % 2 ^ 32 →
      decode p r = decode p q) ∧
    (r.cmd.toNat % 16 = 7 → r.opa = q.opa → r.opb.toNat % 2 ^ 32 = q.opb.toNat % 2 ^ 32 →
      r.opc.toNat % 2 ^ 32 = q.opc.toNat % 2 ^ 32 → decode p r = decode p q) ∧
    (r.cmd.toNat % 16 = 8 → r.opa = q.opa → r.opb.toNat % 2 ^ 16 = q.opb.toNat % 2 ^ 16 →
      r.opc.toNat % 2 ^ 16 = q.opc.toNat % 2 ^ 16 → decode p r = decode p q)

/-- R56. One word of each family, written out from the opcode map. -/
def Obligations.SampleWordsDecode : Prop :=
  decodeTableWord 16 0x0001 = some (.seed 0) ∧
  decodeTableWord 16 0x0204 = some (.nextb 32) ∧
  decodeTableWord 16 0x0306 = some (.stepF 0 0 0 0 48) ∧
  decodeTableWord 16 0x0606 = some (.stepR 0 0 0 0 32) ∧
  decodeTableWord 16 0x0007 = some (.popseed 0 0 0) ∧
  decodeTableWord 16 0x000B = some (.nexti 0) ∧
  decodeTableWord 16 0x0000 = none

/-- R65. Every command is the command its listing line spells, and a negative literal is the operand of its value
modulo `2^W`. -/
def Obligations.ListingLinesAssembleBack : Prop :=
  (∀ i : Instr, assemble (disassemble i).1 (disassemble i).2 = some i) ∧
  ∀ (w : Nat) (v : Int), 1 ≤ w → -(2 ^ (w - 1)) ≤ v → v < 0 →
    literal w v = literal w (v + 2 ^ w) ∧ ∃ b : BitVec w, literal w v = some b ∧ b.toInt = v

/-- R66; that the product wraps to this number is the spec's own computation (41_lcg_state_stepper.md, section 5).
The pseudo-instructions are STEP with the canonical parameters, and the constant of CSTEP.R is the
inverse of `MULT`. -/
def Obligations.PseudoInstructionsAreCanonicalSteps : Prop :=
  (∀ (state : Word) (bits : BitCount),
    assemble .cstepF [(state.toNat : Int), (bits.toNat : Int)] =
      some (.stepF state 0x5DEECE66D 0xB 0xFFFFFFFFFFFF bits) ∧
    assemble .cstepR [(state.toNat : Int), (bits.toNat : Int)] =
      some (.stepR state 0xDFE05BCB1365 0xB 0xFFFFFFFFFFFF bits)) ∧
  MULT * MULT_INVERSE = 0x86E9000000000001 ∧ (MULT.toNat * MULT_INVERSE.toNat) % 2 ^ 48 = 1
end

