-- ==== Sys2Proof/Laws/State.lean ====
section
/-! SUPPORT. One lemma per field per update of State, true by unfolding once. (The fields of `nextBits` and
`nextLong` go through `advanceTo`: by `rfl` alone the kernel would compare a stepped STATE with the old one.) -/

namespace Sys2Proof.Machine

section
variable (s : State) (v : Word) (r : Response) (q : Request) (p : Params)

@[simp] theorem seedWith_stateReg : (s.seedWith v).stateReg = scramble v := rfl
@[simp] theorem seedWith_phase : (s.seedWith v).phase = .seeded := rfl
@[simp] theorem seedWith_params : (s.seedWith v).params = s.params := rfl
@[simp] theorem seedWith_inputs : (s.seedWith v).inputs = s.inputs := rfl
@[simp] theorem seedWith_responses : (s.seedWith v).responses = s.responses := rfl
@[simp] theorem seedWith_freeCount : (s.seedWith v).freeCount = s.freeCount := rfl

@[simp] theorem respond_stateReg : (s.respond r).stateReg = s.stateReg := rfl
@[simp] theorem respond_phase : (s.respond r).phase = s.phase := rfl
@[simp] theorem respond_params : (s.respond r).params = s.params := rfl
@[simp] theorem respond_inputs : (s.respond r).inputs = s.inputs := rfl
@[simp] theorem respond_responses : (s.respond r).responses = s.responses ++ [r] := rfl
@[simp] theorem respond_freeCount : (s.respond r).freeCount = s.freeCount := rfl

@[simp] theorem applyReset_stateReg :
    s.applyReset.stateReg = Config.unspecifiedState s.freeCount := rfl
@[simp] theorem applyReset_phase : s.applyReset.phase = .uninitialized := rfl
@[simp] theorem applyReset_params : s.applyReset.params = s.params := rfl
@[simp] theorem applyReset_inputs : s.applyReset.inputs = s.inputs := rfl
@[simp] theorem applyReset_responses : s.applyReset.responses = s.responses := rfl
@[simp] theorem applyReset_freeCount : s.applyReset.freeCount = s.freeCount + 1 := rfl

@[simp] theorem advanceTo_stateReg : (s.advanceTo v).stateReg = v := rfl
@[simp] theorem advanceTo_phase : (s.advanceTo v).phase = .advanced := rfl
@[simp] theorem advanceTo_params : (s.advanceTo v).params = s.params := rfl
@[simp] theorem advanceTo_inputs : (s.advanceTo v).inputs = s.inputs := rfl
@[simp] theorem advanceTo_responses : (s.advanceTo v).responses = s.responses := rfl
@[simp] theorem advanceTo_freeCount : (s.advanceTo v).freeCount = s.freeCount := rfl

@[simp] theorem advanceTo_advanceTo (w : Word) : (s.advanceTo v).advanceTo w = s.advanceTo w := rfl

theorem nextBits_snd (n : Nat) : (nextBits n s).2 = s.advanceTo (canonStep s.stateReg) := rfl

@[simp] theorem nextBits_stateReg (n : Nat) :
    (nextBits n s).2.stateReg = canonStep s.stateReg := by simp [nextBits_snd]
@[simp] theorem nextBits_phase (n : Nat) : (nextBits n s).2.phase = .advanced := by simp [nextBits_snd]
@[simp] theorem nextBits_params (n : Nat) : (nextBits n s).2.params = s.params := by simp [nextBits_snd]
@[simp] theorem nextBits_inputs (n : Nat) : (nextBits n s).2.inputs = s.inputs := by simp [nextBits_snd]
@[simp] theorem nextBits_responses (n : Nat) : (nextBits n s).2.responses = s.responses := by simp [nextBits_snd]
@[simp] theorem nextBits_freeCount (n : Nat) : (nextBits n s).2.freeCount = s.freeCount := by simp [nextBits_snd]

theorem nextLong_snd : (nextLong s).2 = s.advanceTo (canonStep (canonStep s.stateReg)) := by
  simp [nextLong, nextBits_snd]

@[simp] theorem nextLong_stateReg :
    (nextLong s).2.stateReg = canonStep (canonStep s.stateReg) := by simp [nextLong_snd]
@[simp] theorem nextLong_phase : (nextLong s).2.phase = .advanced := by simp [nextLong_snd]
@[simp] theorem nextLong_params : (nextLong s).2.params = s.params := by simp [nextLong_snd]
@[simp] theorem nextLong_inputs : (nextLong s).2.inputs = s.inputs := by simp [nextLong_snd]
@[simp] theorem nextLong_responses : (nextLong s).2.responses = s.responses := by simp [nextLong_snd]
@[simp] theorem nextLong_freeCount : (nextLong s).2.freeCount = s.freeCount := by simp [nextLong_snd]

@[simp] theorem issueFirst_stateReg : (s.issueFirst q).stateReg = s.stateReg := rfl
@[simp] theorem issueFirst_phase : (s.issueFirst q).phase = s.phase := rfl
@[simp] theorem issueFirst_params : (s.issueFirst q).params = s.params := rfl
@[simp] theorem issueFirst_inputs : (s.issueFirst q).inputs = .command q :: s.inputs := rfl
@[simp] theorem issueFirst_responses : (s.issueFirst q).responses = s.responses := rfl
@[simp] theorem issueFirst_freeCount : (s.issueFirst q).freeCount = s.freeCount := rfl

@[simp] theorem dropInput_stateReg : s.dropInput.stateReg = s.stateReg := rfl
@[simp] theorem dropInput_phase : s.dropInput.phase = s.phase := rfl
@[simp] theorem dropInput_params : s.dropInput.params = s.params := rfl
@[simp] theorem dropInput_inputs : s.dropInput.inputs = s.inputs.tail := rfl
@[simp] theorem dropInput_responses : s.dropInput.responses = s.responses := rfl
@[simp] theorem dropInput_freeCount : s.dropInput.freeCount = s.freeCount := rfl

@[simp] theorem powerOn_stateReg : (State.powerOn p).stateReg = 0 := rfl
@[simp] theorem powerOn_phase : (State.powerOn p).phase = .uninitialized := rfl
@[simp] theorem powerOn_params : (State.powerOn p).params = p := rfl
@[simp] theorem powerOn_inputs : (State.powerOn p).inputs = [] := rfl
@[simp] theorem powerOn_responses : (State.powerOn p).responses = [] := rfl
@[simp] theorem powerOn_freeCount : (State.powerOn p).freeCount = 0 := rfl

end

/-- Two states are equal when their six fields are. -/
theorem state_eq_of_fields {s t : State} (h1 : s.stateReg = t.stateReg) (h2 : s.phase = t.phase)
    (h3 : s.params = t.params) (h4 : s.inputs = t.inputs) (h5 : s.responses = t.responses)
    (h6 : s.freeCount = t.freeCount) : s = t := by
  cases s; cases t; simp_all

end Sys2Proof.Machine
end

