-- ==== Sys2Proof/Laws/Ops.lean ====
section
/-! SUPPORT. One lemma per shared operation: what it can do, and what it computes on the numbers its words denote. -/

namespace Sys2Proof.Machine

/-! ### refusing -/

@[simp] theorem check_eq_next {ok : Bool} {why : Refusal} {rest : Unit → Result} {t : State} :
    check ok why rest = .next t ↔ ok = true ∧ rest () = .next t := by
  cases ok <;> simp [check]

@[simp] theorem check_eq_refused {ok : Bool} {why w : Refusal} {rest : Unit → Result} :
    check ok why rest = .refused w ↔ (ok = false ∧ why = w) ∨ (ok = true ∧ rest () = .refused w) := by
  cases ok <;> simp [check]

@[simp] theorem readingState_eq_next {s t : State} {rest : Unit → Result} :
    readingState s rest = .next t ↔ s.phase ≠ .uninitialized ∧ rest () = .next t := by
  simp [readingState]

@[simp] theorem readingState_eq_refused {s : State} {w : Refusal} {rest : Unit → Result} :
    readingState s rest = .refused w ↔
      (s.phase = .uninitialized ∧ w = .uninitRead) ∨
        (s.phase ≠ .uninitialized ∧ rest () = .refused w) := by
  simp [readingState, eq_comm (a := w)]

/-- A check that passes leaves the rest. -/
theorem check_pass {ok : Bool} {why : Refusal} {rest : Unit → Result} (h : ok = true) :
    check ok why rest = rest () := by simp [check, h]

/-- With something written in `STATE`, a reading command runs. -/
theorem readingState_pass {s : State} {rest : Unit → Result} (h : s.phase ≠ .uninitialized) :
    readingState s rest = rest () := check_pass (by simpa using h)

/-! ### conditions -/

theorem bitsInRange_iff {hi : Nat} {n : BitCount} :
    bitsInRange hi n = true ↔ n.toNat ≠ 0 ∧ n.toNat ≤ hi := by
  simp [bitsInRange]

theorem bitsInRange_eq_within (hi : Nat) (n : BitCount) : bitsInRange hi n = n.within 1 hi := by
  rw [Bool.eq_iff_iff, bitsInRange_iff]
  simp only [BitCount.within, decide_eq_true_iff]
  omega

theorem boundPositive_iff {b : W32} : boundPositive b = true ↔ 0 < b.toInt := by
  simp [boundPositive]

/-- A bound that is positive as an `i32` is its own number, below `2^31`. -/
theorem toNat_of_positive {b : W32} (h : 0 < b.toInt) :
    b.toInt = b.toNat ∧ 0 < b.toNat ∧ b.toNat < 2 ^ 31 := by
  have hb := b.isLt
  rw [BitVec.toInt_eq_toNat_cond] at h ⊢
  split at h
  · rename_i hlt
    rw [if_pos hlt]
    omega
  · omega

/-! ### masks and steps on the numbers -/

/-- Masking with `2^k − 1` is reduction modulo `2^k`. -/
theorem and_lowMask_toNat (v : Word) {k : Nat} (hk : k ≤ 64) :
    (v &&& BitVec.ofNat 64 (2 ^ k - 1)).toNat = v.toNat % 2 ^ k := by
  have h : (2 ^ k - 1) < 2 ^ 64 := by
    have : 2 ^ k ≤ 2 ^ 64 := Nat.pow_le_pow_right (by omega) hk
    have := Nat.two_pow_pos k
    omega
  rw [BitVec.toNat_and, BitVec.toNat_ofNat, Nat.mod_eq_of_lt h, Nat.and_two_pow_sub_one_eq_mod]

theorem MASK48_eq : MASK48 = BitVec.ofNat 64 (2 ^ 48 - 1) := by decide

theorem MULT_eq : MULT = 0x5DEECE66D#64 := by decide

theorem mask48_toNat (v : Word) : (v &&& MASK48).toNat = v.toNat % 2 ^ 48 := by
  rw [MASK48_eq, and_lowMask_toNat v (by omega)]

/-- `Scramble` on the number `v` denotes (R80). -/
theorem scramble_toNat (v : Word) : (scramble v).toNat = scrambleNat v := by
  rw [scramble, mask48_toNat, MULT_eq, scrambleNat]

theorem lcgNat_lt (x : Nat) : lcgNat x < 2 ^ 48 := Nat.mod_lt _ (by decide)

theorem scrambleNat_lt (v : Word) : scrambleNat v < 2 ^ 48 := Nat.mod_lt _ (by decide)

/-- The recurrence depends on the low 48 bits only (R35). -/
theorem lcgNat_mod (x : Nat) : lcgNat (x % 2 ^ 48) = lcgNat x := by
  unfold lcgNat; omega

/-- The canonical step is the recurrence in unbounded integers (R90). -/
theorem canonStep_toNat (g : Word) : (canonStep g).toNat = lcgNat g.toNat := by
  have hm : MULT.toNat = 25214903917 := by decide
  have ha : ADD.toNat = 11 := by decide
  rw [canonStep, mask48_toNat, BitVec.toNat_add, BitVec.toNat_mul, hm, ha, lcgNat]
  omega

theorem canonStep_eq_ofNat (g : Word) : canonStep g = BitVec.ofNat 64 (lcgNat g.toNat) := by
  rw [← canonStep_toNat, BitVec.ofNat_toNat, BitVec.setWidth_eq]

theorem scramble_eq_ofNat (v : Word) : scramble v = BitVec.ofNat 64 (scrambleNat v) := by
  rw [← scramble_toNat, BitVec.ofNat_toNat, BitVec.setWidth_eq]

/-- The drawn bits as a number (R90). -/
theorem topBits_eq_ofNat (n : Nat) (g : Word) :
    topBits n g = BitVec.ofNat 32 (topNat n g.toNat) := by
  apply BitVec.eq_of_toNat_eq
  simp [topBits, trunc32, topNat, Nat.shiftRight_eq_div_pow]

theorem topNat_lt {n g : Nat} (hg : g < 2 ^ 48) (hn : n ≤ 48) : topNat n g < 2 ^ n := by
  rw [topNat, Nat.div_lt_iff_lt_mul (Nat.two_pow_pos _), ← Nat.pow_add]
  simpa [show n + (48 - n) = 48 by omega] using hg

theorem lcgIter_zero (x : Nat) : lcgIter 0 x = x := by
  rw [lcgIter, Function.iterate_zero_apply]

/-- The first step of an iteration taken out. -/
theorem lcgIter_step (k x : Nat) : lcgIter (k + 1) x = lcgIter k (lcgNat x) := by
  rw [lcgIter, lcgIter, Function.iterate_succ_apply]

/-- The last step of an iteration taken out. -/
theorem lcgIter_succ (k x : Nat) : lcgIter (k + 1) x = lcgNat (lcgIter k x) := by
  rw [lcgIter, lcgIter, Function.iterate_succ_apply']

theorem lcgIter_one (x : Nat) : lcgIter 1 x = lcgNat x := by rw [lcgIter_succ, lcgIter_zero]

theorem lcgIter_two (x : Nat) : lcgIter 2 x = lcgNat (lcgNat x) := by
  rw [lcgIter_succ, lcgIter_one]

theorem lcgIter_lt {k x : Nat} (hk : k ≠ 0) : lcgIter k x < 2 ^ 48 := by
  obtain ⟨k, rfl⟩ := Nat.exists_eq_succ_of_ne_zero hk
  rw [lcgIter_succ]; exact lcgNat_lt _

/-- What NextBits does (R90): the drawn bits, and the state after it. -/
theorem nextBits_eq (n : Nat) (s : State) :
    nextBits n s =
      (BitVec.ofNat 32 (topNat n (lcgNat s.stateReg.toNat)),
        s.advanceTo (BitVec.ofNat 64 (lcgNat s.stateReg.toNat))) := by
  rw [nextBits, topBits_eq_ofNat, canonStep_toNat, canonStep_eq_ofNat]

theorem ofNat_lcgNat_toNat (x : Nat) : (BitVec.ofNat 64 (lcgNat x)).toNat = lcgNat x := by
  have := lcgNat_lt x
  rw [BitVec.toNat_ofNat, Nat.mod_eq_of_lt (by omega)]

/-- Shifting left and adding, on `toInt` before wrapping. -/
theorem shift_add_eq_ofInt (x y : W32) :
    (sext32 x <<< 32) + sext32 y = BitVec.ofInt 64 (x.toInt * 2 ^ 32 + y.toInt) := by
  have hs (v : W32) : sext32 v = BitVec.ofInt 64 v.toInt := by
    apply BitVec.eq_of_toInt_eq
    rw [sext32, BitVec.toInt_signExtend_of_le (by omega), BitVec.toInt_ofInt_eq_self (by omega)]
    all_goals have := BitVec.toInt_lt (x := v); have := BitVec.le_toInt (x := v); omega
  have hp : BitVec.twoPow 64 32 = BitVec.ofInt 64 (2 ^ 32) := by decide
  rw [BitVec.shiftLeft_eq_mul_twoPow, BitVec.ofInt_add, BitVec.ofInt_mul, hs, hs, hp]

/-- What the two steps of NEXTL do (R92). -/
theorem nextLong_eq (s : State) :
    nextLong s =
      (BitVec.ofInt 64 (longInt s.stateReg.toNat),
        s.advanceTo (BitVec.ofNat 64 (lcgIter 2 s.stateReg.toNat))) := by
  have h1 := ofNat_lcgNat_toNat s.stateReg.toNat
  rw [nextLong, nextBits_eq, nextBits_eq]
  simp only [advanceTo_stateReg, advanceTo_advanceTo]
  rw [h1, shift_add_eq_ofInt, longInt, lcgIter_two]

end Sys2Proof.Machine
end

