-- ==== Sys2Proof/Laws/Commands.lean ====
section
/-! SUPPORT. One lemma per meaning: when it answers a next state, and which. -/

namespace Sys2Proof.Machine

variable {s t : State}

theorem execSeed_eq (raw : Word) (s : State) :
    execSeed raw s = .next ((s.seedWith raw).respond (.res0 (scramble raw))) := rfl

theorem execSetst_eq (raw : Word) (s : State) :
    execSetst raw s =
      .next { s with stateReg := raw, phase := .seeded, responses := s.responses ++ [.none] } := rfl

theorem execGetst_eq_next :
    execGetst s = .next t ↔ s.phase ≠ .uninitialized ∧ s.respond (.res0 s.stateReg) = t := by
  simp [execGetst]

theorem execNextb_eq_next {n : BitCount} :
    execNextb n s = .next t ↔
      (1 ≤ n.toNat ∧ n.toNat ≤ 32) ∧ s.phase ≠ .uninitialized ∧
        (s.advanceTo (canonStep s.stateReg)).respond
          (.res0 (sext32 (topBits n.toNat (canonStep s.stateReg)))) = t := by
  simp only [execNextb, check_eq_next, bitsInRange_iff, readingState_eq_next, nextBits, i32Result,
    Host.Outcome.next.injEq, Nat.one_le_iff_ne_zero]

theorem execNextl_eq_next :
    execNextl s = .next t ↔
      s.phase ≠ .uninitialized ∧ (nextLong s).2.respond (.res0 (nextLong s).1) = t := by
  simp only [execNextl, readingState_eq_next, Host.Outcome.next.injEq]

theorem stepResponse_eq_next {bits : BitCount} {newState : Word} :
    stepResponse bits newState s = .next t ↔
      (1 ≤ bits.toNat ∧ bits.toNat ≤ 48) ∧
        s.respond (.res01 newState (extracted s.params.shiftKind bits newState)) = t := by
  simp only [stepResponse, check_eq_next, bitsInRange_iff, Host.Outcome.next.injEq,
    Nat.one_le_iff_ne_zero]

theorem reseed_eq (derived : Word) (s : State) :
    reseed derived s = .next ((s.seedWith derived).respond (.res0 derived)) := rfl

/-- Where POPSEED ends: nothing of the prior `STATE` or `PHASE` is left (R113). -/
theorem execPopseed_eq (w : Word) (x z : W32) (s : State) :
    ∃ derived : Word,
      derived = populationMix (BitVec.ofInt 64 (longInt (scrambleNat w)) ||| 1)
        (BitVec.ofInt 64 (longInt (lcgIter 2 (scrambleNat w))) ||| 1) w x z ∧
      execPopseed w x z s = .next ((s.seedWith derived).respond (.res0 derived)) := by
  refine ⟨_, rfl, ?_⟩
  have h2 : (BitVec.ofNat 64 (lcgIter 2 (scrambleNat w))).toNat = lcgIter 2 (scrambleNat w) := by
    rw [lcgIter_two, ofNat_lcgNat_toNat]
  rw [execPopseed, nextLong_eq, nextLong_eq, reseed_eq]
  simp only [seedWith_stateReg, advanceTo_stateReg, scramble_toNat, h2]
  rfl

theorem execNextf_eq_next :
    execNextf s = .next t ↔
      s.phase ≠ .uninitialized ∧
        (s.advanceTo (canonStep s.stateReg)).respond
          (.res0 (zext32 (floatPattern (topBits 24 (canonStep s.stateReg)).toNat))) = t := by
  simp only [execNextf, readingState_eq_next, nextBits, f32Result, Host.Outcome.next.injEq]

theorem execNextip_eq_next {bound : W32} :
    execNextip bound s = .next t ↔
      0 < bound.toInt ∧ boundPowerOfTwo bound = true ∧ s.phase ≠ .uninitialized ∧
        (s.advanceTo (canonStep s.stateReg)).respond
          (.res0 (sext32 (scaledDraw bound (topBits 31 (canonStep s.stateReg))))) = t := by
  simp only [execNextip, check_eq_next, boundPositive_iff, readingState_eq_next, nextBits, i32Result,
    Host.Outcome.next.injEq]

/-! ### the rejection loop -/

theorem drawUntilAccepted_zero (bound : W32) (s : State) : drawUntilAccepted bound 0 s = none := by
  rw [drawUntilAccepted]

theorem drawUntilAccepted_succ (bound : W32) (fuel : Nat) (s : State) :
    drawUntilAccepted bound (fuel + 1) s =
      if drawAccepted (nextBits 31 s).1 ((nextBits 31 s).1 % bound) bound
      then some ((nextBits 31 s).1 % bound, (nextBits 31 s).2)
      else drawUntilAccepted bound fuel (nextBits 31 s).2 := by
  rw [drawUntilAccepted]

/-- The `k`-th draw of 31 bits from the state `g`, counting from 1. -/
def draw31 (g k : Nat) : W32 := BitVec.ofNat 32 (topNat 31 (lcgIter k g))

/-- The test of NEXTI on a draw. -/
def accepts (bound bits : W32) : Bool := drawAccepted bits (bits % bound) bound

/-- What the loop can do: it ends after the first accepted draw, if that is within the fuel. -/
theorem drawUntilAccepted_eq_some_iff {bound : W32} {fuel : Nat} {s : State} {d : W32 × State} :
    drawUntilAccepted bound fuel s = some d ↔
      ∃ m, m < fuel ∧ (∀ j, j < m → accepts bound (draw31 s.stateReg.toNat (j + 1)) = false) ∧
        accepts bound (draw31 s.stateReg.toNat (m + 1)) = true ∧
        d = (draw31 s.stateReg.toNat (m + 1) % bound,
          s.advanceTo (BitVec.ofNat 64 (lcgIter (m + 1) s.stateReg.toNat))) := by
  induction fuel generalizing s with
  | zero => simp [drawUntilAccepted_zero]
  | succ fuel ih =>
    have hone : draw31 s.stateReg.toNat 1 = (nextBits 31 s).1 := by
      rw [nextBits_eq, draw31, lcgIter_one]
    have hreg : (nextBits 31 s).2.stateReg.toNat = lcgNat s.stateReg.toNat := by
      rw [nextBits_stateReg, canonStep_toNat]
    have hadv (v : Word) : (nextBits 31 s).2.advanceTo v = s.advanceTo v := by
      rw [nextBits_snd, advanceTo_advanceTo]
    have hdraw (k : Nat) :
        draw31 (lcgNat s.stateReg.toNat) k = draw31 s.stateReg.toNat (k + 1) := by
      rw [draw31, draw31, lcgIter_step]
    rw [drawUntilAccepted_succ]
    by_cases hacc : accepts bound (draw31 s.stateReg.toNat 1) = true
    · rw [if_pos (by rw [← hone]; exact hacc)]
      constructor
      · intro h
        refine ⟨0, by omega, by intro j hj; omega, hacc, ?_⟩
        rw [← Option.some.inj h, nextBits_eq, draw31, lcgIter_one]
      · rintro ⟨m, -, hrej, -, rfl⟩
        obtain _ | m := m
        · rw [nextBits_eq, draw31, lcgIter_one]
        · exact absurd hacc (by rw [hrej 0 (by omega)]; decide)
    · rw [if_neg (by rw [← hone]; exact hacc), ih, hreg]
      simp only [hdraw, hadv, ← lcgIter_step]
      constructor
      · rintro ⟨m, hm, hrej, hok, rfl⟩
        refine ⟨m + 1, by omega, ?_, hok, rfl⟩
        intro j hj
        obtain _ | j := j
        · simpa using hacc
        · exact hrej j (by omega)
      · rintro ⟨m, hm, hrej, hok, rfl⟩
        obtain _ | m := m
        · exact absurd hok hacc
        · exact ⟨m, by omega, fun j hj => hrej (j + 1) (by omega), hok, rfl⟩

theorem loopResult_eq_next {o : Option (W32 × State)} :
    loopResult o = .next t ↔ ∃ d, o = some d ∧ d.2.respond (.res0 (sext32 d.1)) = t := by
  cases o <;> simp [loopResult, i32Result]

theorem loopResult_eq_refused {o : Option (W32 × State)} {why : Refusal} :
    loopResult o = .refused why ↔ o = none ∧ why = .drawLoopUnended := by
  cases o <;> simp [loopResult, eq_comm]

theorem execNexti_eq_next {bound : W32} :
    execNexti bound s = .next t ↔
      0 < bound.toInt ∧ s.phase ≠ .uninitialized ∧
        ∃ d, drawUntilAccepted bound drawFuel s = some d ∧
          d.2.respond (.res0 (sext32 d.1)) = t := by
  rw [execNexti, check_eq_next, boundPositive_iff, readingState_eq_next, loopResult_eq_next]

/-! ### all commands at once -/

/-- What a command that completes can do: answer and leave the registers alone; draw, ending in a masked `STATE`; store
what SETST gives; or re-seed. -/
theorem exec_eq_next_cases {i : Instr} (h : exec i s = .next t) :
    ∃ r, Instr.answersWith i r = true ∧
      ((Instr.keepsState i = true ∧ t = s.respond r) ∨
       (Instr.isDraw i = true ∧ ∃ g : Word, g.toNat < 2 ^ 48 ∧ t = (s.advanceTo g).respond r) ∨
       (∃ raw, i = .setst raw ∧
         t = { s with stateReg := raw, phase := .seeded, responses := s.responses ++ [r] }) ∨
       (Instr.keepsState i = false ∧ Instr.isDraw i = false ∧ (∀ raw, i ≠ .setst raw) ∧
         ∃ v, t = (s.seedWith v).respond r)) := by
  have iterLt (x k : Nat) (hk : k ≠ 0) : (BitVec.ofNat 64 (lcgIter k x)).toNat < 2 ^ 48 := by
    have := lcgIter_lt (x := x) hk
    rw [BitVec.toNat_ofNat, Nat.mod_eq_of_lt (by omega)]
    exact this
  have stepLt : (canonStep s.stateReg).toNat < 2 ^ 48 := by
    rw [canonStep_toNat]
    exact lcgNat_lt _
  cases i with
  | seed raw =>
    rw [exec, execSeed_eq] at h
    obtain rfl := Host.Outcome.next.inj h
    exact ⟨_, rfl, .inr (.inr (.inr ⟨rfl, rfl, by simp, _, rfl⟩))⟩
  | setst raw =>
    rw [exec, execSetst_eq] at h
    obtain rfl := Host.Outcome.next.inj h
    exact ⟨_, rfl, .inr (.inr (.inl ⟨_, rfl, rfl⟩))⟩
  | getst =>
    rw [exec, execGetst_eq_next] at h
    obtain ⟨-, rfl⟩ := h
    exact ⟨_, rfl, .inl ⟨rfl, rfl⟩⟩
  | nextb n =>
    rw [exec, execNextb_eq_next] at h
    obtain ⟨-, -, rfl⟩ := h
    exact ⟨_, rfl, .inr (.inl ⟨rfl, _, stepLt, rfl⟩)⟩
  | nextl =>
    rw [exec, execNextl_eq_next, nextLong_eq] at h
    obtain ⟨-, rfl⟩ := h
    exact ⟨_, rfl, .inr (.inl ⟨rfl, _, iterLt _ _ (by omega), rfl⟩)⟩
  | stepF g m c k b =>
    rw [exec, execStepF, stepResponse_eq_next] at h
    obtain ⟨-, rfl⟩ := h
    exact ⟨_, rfl, .inl ⟨rfl, rfl⟩⟩
  | stepR g m c k b =>
    rw [exec, execStepR, stepResponse_eq_next] at h
    obtain ⟨-, rfl⟩ := h
    exact ⟨_, rfl, .inl ⟨rfl, rfl⟩⟩
  | popseed w x z =>
    obtain ⟨d, -, he⟩ := execPopseed_eq w x z s
    rw [exec, he] at h
    obtain rfl := Host.Outcome.next.inj h
    exact ⟨_, rfl, .inr (.inr (.inr ⟨rfl, rfl, by simp, _, rfl⟩))⟩
  | decseed w x z =>
    rw [exec, execDecseed, reseed_eq] at h
    obtain rfl := Host.Outcome.next.inj h
    exact ⟨_, rfl, .inr (.inr (.inr ⟨rfl, rfl, by simp, _, rfl⟩))⟩
  | nextf =>
    rw [exec, execNextf_eq_next] at h
    obtain ⟨-, rfl⟩ := h
    exact ⟨_, rfl, .inr (.inl ⟨rfl, _, stepLt, rfl⟩)⟩
  | nextip b =>
    rw [exec, execNextip_eq_next] at h
    obtain ⟨-, -, -, rfl⟩ := h
    exact ⟨_, rfl, .inr (.inl ⟨rfl, _, stepLt, rfl⟩)⟩
  | nexti b =>
    rw [exec, execNexti_eq_next] at h
    obtain ⟨-, -, d, hd, rfl⟩ := h
    obtain ⟨m, -, -, -, rfl⟩ := drawUntilAccepted_eq_some_iff.mp hd
    exact ⟨_, rfl, .inr (.inl ⟨rfl, _, iterLt _ _ (by omega), rfl⟩)⟩

end Sys2Proof.Machine
end

