-- ==== Sys2Proof/Laws/Decode.lean ====
section
/-! SUPPORT. The fields of a command word and of an encoded operand. -/

namespace Sys2Proof

section
variable (op : BitVec 4) (n : BitCount) (dir : BitVec 1)

/-- A command word as the number the opcode map gives it (R56). -/
theorem commandWord_toNat :
    (commandWord op n dir).toNat = op.toNat + 16 * n.toNat + 1024 * dir.toNat := by
  revert op n dir
  decide

@[simp] theorem fieldOp_commandWord : fieldOp (commandWord op n dir) = op := by
  revert op n dir
  decide

@[simp] theorem fieldN_commandWord : fieldN (commandWord op n dir) = n := by
  revert op n dir
  decide

@[simp] theorem fieldDir_commandWord : fieldDir (commandWord op n dir) = dir := by
  revert op n dir
  decide

@[simp] theorem fieldZero_commandWord : fieldZero (commandWord op n dir) = 0 := by
  revert op n dir
  decide

end

/-- A word with `N = 0` and `DIR = 0`, under the mask of R59 for such a command. -/
theorem commandWord_and_FFFF (op : BitVec 4) :
    commandWord op 0 0 &&& 0xFFFF = op.setWidth 16 := by
  revert op
  decide

/-- A word with any `N`, under the mask of R59 for NEXTB and STEP. -/
theorem commandWord_and_FC0F (op : BitVec 4) (n : BitCount) (dir : BitVec 1) :
    commandWord op n dir &&& 0xFC0F = commandWord op 0 dir := by
  revert op n dir
  decide

theorem fieldOp_toNat (w : CmdWord) : (fieldOp w).toNat = w.toNat % 16 := by
  simp [fieldOp]

theorem fieldN_toNat (w : CmdWord) : (fieldN w).toNat = w.toNat / 16 % 64 := by
  simp [fieldN, Nat.shiftRight_eq_div_pow]

theorem fieldDir_toNat (w : CmdWord) : (fieldDir w).toNat = w.toNat / 1024 % 2 := by
  simp [fieldDir, Nat.shiftRight_eq_div_pow]

theorem fieldZero_toNat (w : CmdWord) : (fieldZero w).toNat = w.toNat / 2048 := by
  have := w.isLt
  simp [fieldZero, Nat.shiftRight_eq_div_pow]
  omega

/-- A command word is its fields (R52). -/
theorem commandWord_of_fields (w : CmdWord) (h : fieldZero w = 0) :
    commandWord (fieldOp w) (fieldN w) (fieldDir w) = w := by
  apply BitVec.eq_of_toNat_eq
  have hz : w.toNat / 2048 = 0 := by rw [← fieldZero_toNat, h]; decide
  rw [commandWord_toNat, fieldOp_toNat, fieldN_toNat, fieldDir_toNat]
  omega

@[simp] theorem low32_setWidth (v : W32) : low32 (v.setWidth 64) = v := by
  simp [low32]

@[simp] theorem low16_setWidth (v : W16) : low16 (v.setWidth 64) = v := by
  simp [low16]

theorem low32_toNat (v : Word) : (low32 v).toNat = v.toNat % 2 ^ 32 := by
  simp [low32]

theorem low16_toNat (v : Word) : (low16 v).toNat = v.toNat % 2 ^ 16 := by
  simp [low16]

end Sys2Proof
end

