-- ==== Sys2Proof/Laws/PerInstr.lean ====
section
/-! SUPPORT. Statements made per command, about the command as syntax. -/

namespace Sys2Proof.Laws.EncodedWord

/-- The word a command encodes to meets the command's own match and mask of R59, and its `ZERO` field is zero (R52). -/
def Statement (i : Instr) : Prop :=
  (encode i).cmd &&& (matchMask i).2 = (matchMask i).1 ∧ fieldZero (encode i).cmd = 0

theorem seed (rawSeed : Word) :
    Statement (.seed rawSeed) :=
  ⟨commandWord_and_FFFF 1, fieldZero_commandWord ..⟩

theorem setst (raw : Word) :
    Statement (.setst raw) :=
  ⟨commandWord_and_FFFF 2, fieldZero_commandWord ..⟩

theorem getst :
    Statement .getst :=
  ⟨commandWord_and_FFFF 3, fieldZero_commandWord ..⟩

theorem nextb (n : BitCount) :
    Statement (.nextb n) :=
  ⟨commandWord_and_FC0F 4 n 0, fieldZero_commandWord ..⟩

theorem nextl :
    Statement .nextl :=
  ⟨commandWord_and_FFFF 5, fieldZero_commandWord ..⟩

theorem stepF (state multiplier increment mask : Word) (bits : BitCount) :
    Statement (.stepF state multiplier increment mask bits) :=
  ⟨commandWord_and_FC0F 6 bits 0, fieldZero_commandWord ..⟩

theorem stepR (state multiplier increment mask : Word) (bits : BitCount) :
    Statement (.stepR state multiplier increment mask bits) :=
  ⟨commandWord_and_FC0F 6 bits 1, fieldZero_commandWord ..⟩

theorem popseed (worldSeed : Word) (x z : W32) :
    Statement (.popseed worldSeed x z) :=
  ⟨commandWord_and_FFFF 7, fieldZero_commandWord ..⟩

theorem decseed (seed : Word) (index step : W16) :
    Statement (.decseed seed index step) :=
  ⟨commandWord_and_FFFF 8, fieldZero_commandWord ..⟩

theorem nextf :
    Statement .nextf :=
  ⟨commandWord_and_FFFF 9, fieldZero_commandWord ..⟩

theorem nextip (bound : W32) :
    Statement (.nextip bound) :=
  ⟨commandWord_and_FFFF 10, fieldZero_commandWord ..⟩

theorem nexti (bound : W32) :
    Statement (.nexti bound) :=
  ⟨commandWord_and_FFFF 11, fieldZero_commandWord ..⟩

end Sys2Proof.Laws.EncodedWord
end

