-- ==== Sys2Proof/Laws/Period.lean ====
section
/-! SUPPORT. The canonical step visits a state whose 31 drawn bits are 0 within one period, from every state. This is
why the fuel of NEXTI (`drawFuel`) is no cap (R126, R169; log entry 7). -/

namespace Sys2Proof.Machine

theorem lcgIter_add (a b x : Nat) : lcgIter (a + b) x = lcgIter a (lcgIter b x) := by
  simp only [lcgIter, Function.iterate_add_apply]

/-- `2^j` steps are multiplication by `1` modulo `2^(j+2)` and addition of an odd multiple of `2^j`. -/
theorem lcgIter_two_pow (j : Nat) :
    ∃ q o : Nat, ∀ x,
      lcgIter (2 ^ j) x % 2 ^ 48 = ((1 + 2 ^ (j + 2) * q) * x + 2 ^ j * (2 * o + 1)) % 2 ^ 48 := by
  induction j with
  | zero =>
    refine ⟨25214903916 / 4, 5, fun x => ?_⟩
    rw [pow_zero, lcgIter_one, lcgNat]
    omega
  | succ j ih =>
    obtain ⟨q, o, h⟩ := ih
    refine ⟨q + 2 ^ (j + 1) * q ^ 2, o + 2 ^ j * q * (2 * o + 1), fun x => ?_⟩
    have twice : lcgIter (2 ^ (j + 1)) x = lcgIter (2 ^ j) (lcgIter (2 ^ j) x) := by
      rw [← lcgIter_add]
      congr 1
      ring
    have inner : (1 + 2 ^ (j + 2) * q) * lcgIter (2 ^ j) x + 2 ^ j * (2 * o + 1) ≡
        (1 + 2 ^ (j + 2) * q) * ((1 + 2 ^ (j + 2) * q) * x + 2 ^ j * (2 * o + 1))
          + 2 ^ j * (2 * o + 1) [MOD 2 ^ 48] :=
      Nat.ModEq.add_right _ (Nat.ModEq.mul_left _ (h x))
    rw [twice, h, inner]
    congr 1
    ring

/-- Within `2^j` steps every state reaches one that is 0 modulo `2^j`. -/
theorem lcgIter_reaches_zero_mod {j : Nat} (hj : j ≤ 48) (x : Nat) :
    ∃ n, n < 2 ^ j ∧ lcgIter n x % 2 ^ j = 0 := by
  induction j with
  | zero => exact ⟨0, by omega, by rw [pow_zero]; omega⟩
  | succ j ih =>
    obtain ⟨n, hn, h0⟩ := ih (by omega)
    have hp : 2 ^ (j + 1) = 2 * 2 ^ j := by ring
    obtain ⟨y, hy⟩ : ∃ y, y = lcgIter n x := ⟨_, rfl⟩
    rw [← hy] at h0
    obtain ⟨c, hc⟩ := Nat.dvd_of_mod_eq_zero h0
    rcases Nat.even_or_odd' c with ⟨d, hd | hd⟩
    · refine ⟨n, by omega, ?_⟩
      rw [← hy, hc, hd, hp]
      exact Nat.mod_eq_zero_of_dvd ⟨d, by ring⟩
    · refine ⟨2 ^ j + n, by omega, ?_⟩
      obtain ⟨q, o, h⟩ := lcgIter_two_pow j
      have hmod : lcgIter (2 ^ j) y ≡ (1 + 2 ^ (j + 2) * q) * y + 2 ^ j * (2 * o + 1)
          [MOD 2 ^ (j + 1)] := Nat.ModEq.of_dvd (Nat.pow_dvd_pow 2 hj) (h y)
      rw [lcgIter_add, ← hy, hmod]
      apply Nat.mod_eq_zero_of_dvd
      rw [hc, hd]
      exact ⟨(2 * d + 1) * 2 ^ (j + 1) * q + d + o + 1, by ring⟩

/-- Within one period some draw of 31 bits is 0. -/
theorem some_draw_is_zero (x : Nat) : ∃ m, m < 2 ^ 48 ∧ topNat 31 (lcgIter (m + 1) x) = 0 := by
  obtain ⟨n, hn, h0⟩ := lcgIter_reaches_zero_mod (le_refl 48) x
  obtain _ | m := n
  · refine ⟨0, by omega, ?_⟩
    rw [lcgIter_zero] at h0
    rw [zero_add, lcgIter_one, ← lcgNat_mod, h0]
    decide
  · refine ⟨m, by omega, ?_⟩
    rw [Nat.mod_eq_of_lt (lcgIter_lt (by omega))] at h0
    rw [h0]
    decide

end Sys2Proof.Machine
end

