-- ==== Sys2Proof/Laws/Step.lean ====
section
/-! SUPPORT. What a step can do, said once. -/

namespace Sys2Proof.Machine

theorem takeInput_eq_none {s : State} : s.takeInput = none ↔ s.inputs = [] := by
  rw [State.takeInput]
  split <;> simp_all

theorem takeInput_of_inputs {s : State} {h : HostInput} {rest : List HostInput}
    (hs : s.inputs = h :: rest) : s.takeInput = some (h, { s with inputs := rest }) := by
  rw [State.takeInput, hs]

/-- A step that answers a next state had no input, or took a reset, or ran the command its request decodes to. -/
theorem step_eq_next_cases {s t : State} (hstep : step s = .next t) :
    (s.inputs = [] ∧ t = s) ∨
    (∃ rest, s.inputs = .reset :: rest ∧ t = State.applyReset { s with inputs := rest }) ∨
    (∃ r rest i, s.inputs = .command r :: rest ∧ decode s.params r = .ok i ∧
      exec i { s with inputs := rest } = .next t) := by
  rcases hs : s.inputs with _ | ⟨_ | _, rest⟩
  · rw [step, takeInput_eq_none.mpr hs] at hstep
    exact .inl ⟨rfl, (Host.Outcome.next.inj hstep).symm⟩
  · rename_i r
    rw [step, takeInput_of_inputs hs] at hstep
    rcases hd : decode s.params r with e | i
    · simp only [hd] at hstep
      exact absurd hstep (by simp)
    · simp only [hd] at hstep
      exact .inr (.inr ⟨r, rest, i, rfl, hd, hstep⟩)
  · rw [step, takeInput_of_inputs hs] at hstep
    exact .inr (.inl ⟨rest, rfl, (Host.Outcome.next.inj hstep).symm⟩)

end Sys2Proof.Machine
end

