-- ==== Sys2Proof/Tests/Slice0.lean ====
section
/-! SUPPORT. Tests. Expected values are those of spec/95_test_vectors.md (the vector's id stands at each test) or the
words of the opcode map R56; then, for every statement with hypotheses, a named witness that meets them. -/

namespace Sys2Proof.Tests

open Sys2Proof.Machine

/-- A block with the default parameters, in the given phase and with the given `STATE`. -/
def block (ph : Phase) (g : Word) : State := { State.reset with phase := ph, stateReg := g }

/-- `PHASE`, `STATE` and the responses of a next state. -/
def seen : Result → Option (Phase × Word × List Response)
  | .next t => some (t.phase, t.stateReg, t.responses)
  | .fault _ => none
  | .refused _ => none

/-- The reason of a refusal. -/
def refusal : Result → Option Refusal
  | .next _ => none
  | .fault _ => none
  | .refused why => some why

theorem next_of_seen {r : Result} (h : (seen r).isSome = true) : ∃ t, r = .next t := by
  cases r with
  | next t => exact ⟨t, rfl⟩
  | fault f => exact nomatch f
  | refused w => simp [seen] at h

/-! ### well-formedness (R62, R166): an ill-formed term for each check -/

theorem test_wellFormed_refuses_draws_when_absent :
    Instr.wellFormed ⟨.arithmetic, false⟩ .nextf = false ∧
    Instr.wellFormed ⟨.arithmetic, false⟩ (.nextip 2) = false ∧
    Instr.wellFormed ⟨.arithmetic, false⟩ (.nexti 3) = false ∧
    Instr.wellFormed ⟨.arithmetic, false⟩ .nextl = true ∧
    Instr.wellFormed Params.standard .nextf = true := by decide

theorem test_operandsAdmitted_refuses_each_breach :
    Instr.operandsAdmitted (.nextb 0) = false ∧ Instr.operandsAdmitted (.nextb 33) = false ∧
    Instr.operandsAdmitted (.nextb 32) = true ∧
    Instr.operandsAdmitted (.stepF 0 0 0 0 0) = false ∧
    Instr.operandsAdmitted (.stepR 0 0 0 0 49) = false ∧
    Instr.operandsAdmitted (.stepR 0 0 0 0 48) = true ∧
    Instr.operandsAdmitted (.nextip 10) = false ∧ Instr.operandsAdmitted (.nextip 0) = false ∧
    Instr.operandsAdmitted (.nextip 0x80000000) = false ∧
    Instr.operandsAdmitted (.nextip 0x40000000) = true ∧
    Instr.operandsAdmitted (.nexti 0) = false ∧ Instr.operandsAdmitted (.nexti 0x80000000) = false ∧
    Instr.operandsAdmitted (.nexti 0x7FFFFFFF) = true := by decide

/-! ### decoding: words written out from R52 and R56 as ZERO, DIR, N, OP -/

theorem test_decode_scrambler_words :
    decode Params.standard ⟨0b00000_0_000000_0001#16, 0x5A6E91E, 7, 8, 9⟩ = .ok (.seed 0x5A6E91E) ∧
    decode Params.standard ⟨0b00000_0_000000_0010#16, 3, 0, 0, 0⟩ = .ok (.setst 3) ∧
    decode Params.standard ⟨0b00000_0_000000_0011#16, 1, 1, 1, 1⟩ = .ok .getst := by decide

theorem test_decode_stepper_words :
    decode Params.standard ⟨0b00000_0_100000_0100#16, 0, 0, 0, 0⟩ = .ok (.nextb 32) ∧
    decode Params.standard ⟨0b00000_0_111111_0100#16, 0, 0, 0, 0⟩ = .ok (.nextb 63) ∧
    decode Params.standard ⟨0b00000_0_000000_0101#16, 0, 0, 0, 0⟩ = .ok .nextl ∧
    decode Params.standard ⟨0b00000_0_110000_0110#16, 1, 2, 3, 4⟩ = .ok (.stepF 1 2 3 4 48) ∧
    decode Params.standard ⟨0b00000_1_100000_0110#16, 1, 2, 3, 4⟩ = .ok (.stepR 1 2 3 4 32) := by
  decide

/-- V-ENC-1, V-ENC-2: the high bits of narrow operands and the unused port are ignored. -/
theorem test_decode_mixer_words :
    decode Params.standard
      ⟨0b00000_0_000000_0111#16, 0x5A6E91E, 0xDEADBEEF00000003, 0x12345678FFFFFFF9, 0xFFFFFFFFFFFFFFFF⟩
        = .ok (.popseed 0x5A6E91E 3 0xFFFFFFF9) ∧
    decode Params.standard
      ⟨0b00000_0_000000_1000#16, 0x5A6E91E, 0xFFFFFFFFFFFF0003, 0xABCD000000000004, 0x55⟩
        = .ok (.decseed 0x5A6E91E 3 4) := by decide

/-- V-ENC-3, V-DEC-21. -/
theorem test_decode_draw_words :
    decode Params.standard ⟨0b00000_0_000000_1001#16, 0, 0, 0, 0⟩ = .ok .nextf ∧
    decode Params.standard ⟨0b00000_0_000000_1010#16, 16, 0, 0, 0⟩ = .ok (.nextip 16) ∧
    decode Params.standard ⟨0b00000_0_000000_1011#16, 0xFFFFFFFF00000010, 1, 2, 3⟩ = .ok (.nexti 16) ∧
    decode ⟨.arithmetic, false⟩ ⟨0b00000_0_000000_1001#16, 0, 0, 0, 0⟩ = .error .drawsAbsent ∧
    decode ⟨.arithmetic, false⟩ ⟨0b00000_0_000000_0101#16, 0, 0, 0, 0⟩ = .ok .nextl := by decide

/-- V-DEC-1, 2, 4, 6, 8. -/
theorem test_decode_reserved_words :
    decode Params.standard ⟨0x0000, 0, 0, 0, 0⟩ = .error .opcode ∧
    decode Params.standard ⟨0x000C, 0, 0, 0, 0⟩ = .error .opcode ∧
    decode Params.standard ⟨0x0801, 0, 0, 0, 0⟩ = .error .zeroField ∧
    decode Params.standard ⟨0x0401, 0, 0, 0, 0⟩ = .error .direction ∧
    decode Params.standard ⟨0x0013, 0, 0, 0, 0⟩ = .error .bitCount := by decide

/-! ### the commands -/

/-- V-SEED-2. -/
theorem test_seed_masks :
    seen (exec (.seed 0xFFFFFFFFFFFFFFFF) State.reset) =
      some (.seeded, 0x0000FFFA21131992, [.res0 0x0000FFFA21131992]) := by decide

/-- V-SEED-13. -/
theorem test_setst_does_not_mask :
    seen (exec (.setst 0xABCD0005DB4A0F73) State.reset) =
      some (.seeded, 0xABCD0005DB4A0F73, [.none]) := by decide

/-- V-SEED-16, V-SEED-19. -/
theorem test_getst_reads_or_is_refused :
    seen (exec .getst (block .advanced 0x0000F46DE06DE602)) =
      some (.advanced, 0x0000F46DE06DE602, [.res0 0x0000F46DE06DE602]) ∧
    refusal (exec .getst State.reset) = some .uninitRead := by decide

/-- V-STEP-14: the high bits of `STATE` do not matter, and the negative `i32` is sign-extended. -/
theorem test_nextb_32 :
    seen (exec (.nextb 32) (block .seeded 0xABCD0005DB4A0F73)) =
      some (.advanced, 0x0000F46DE06DE602, [.res0 0xFFFFFFFFF46DE06D]) := by decide

/-- V-STEP-20, V-STEP-24. -/
theorem test_nextb_range_before_uninit :
    refusal (exec (.nextb 33) (block .seeded 0x5DB4A0F73)) = some .bitsOutOfRange ∧
    refusal (exec (.nextb 0) State.reset) = some .bitsOutOfRange := by decide

/-- V-STEP-7: the negative low half borrows from the high half. -/
theorem test_nextl_negative_low_half :
    seen (exec .nextl (block .seeded 0x5DEECE66D)) =
      some (.advanced, 0x0000D4D95138AB6F, [.res0 0xBB20B45FD4D95138]) := by decide

/-- V-STEP-6: the document's reference sequence. -/
theorem test_nextl_reference_sequence :
    seen (exec .nextl (block .seeded 25153900403)) =
      some (.advanced, 135493623266021, [.res0 0xF46DE06D7B3B1148]) := by decide

/-- V-GSTEP-17 and V-ALT-8: bit 63 of the new state set, under both kinds of shift. -/
theorem test_stepF_shift_kinds :
    seen (exec (.stepF 0x0000F46DE06DE602 0x5DEECE66D 0xB 0xFFFFFFFFFFFFFFFF 16) State.reset) =
      some (.uninitialized, 0, [.res01 0xDC127B3B1148BAE5 0xFFFFFFFFDC127B3B]) ∧
    seen (exec (.stepF 0x0000F46DE06DE602 0x5DEECE66D 0xB 0xFFFFFFFFFFFFFFFF 16)
        (State.powerOn ⟨.logical, true⟩)) =
      some (.uninitialized, 0, [.res01 0xDC127B3B1148BAE5 0x00000000DC127B3B]) := by decide

/-- V-GSTEP-1, V-GSTEP-20. -/
theorem test_stepF_not_truncated :
    seen (exec (.stepF 0x5DB4A0F73 0x5DEECE66D 0xB 0xFFFFFFFFFFFF 32) (block .seeded 5)) =
      some (.seeded, 5, [.res01 0x0000F46DE06DE602 0x00000000F46DE06D]) ∧
    refusal (exec (.stepF 0x5DB4A0F73 0x5DEECE66D 0xB 0xFFFFFFFFFFFF 49) State.reset) =
      some .bitsOutOfRange := by decide

/-- V-GSTEP-8: `state − increment` wraps below zero. -/
theorem test_stepR_wraps :
    seen (exec (.stepR 0 0xDFE05BCB1365 0xB 0xFFFFFFFFFFFF 32) State.reset) =
      some (.uninitialized, 0, [.res01 0x0000615C0E462AA9 0x00000000615C0E46]) := by decide

/-- V-GSTEP-13: a wrong inverse is computed, not refused. -/
theorem test_stepR_wrong_inverse :
    seen (exec (.stepR 0xF46DE06DE602 0x5DEECE66D 0xB 0xFFFFFFFFFFFF 32) State.reset) =
      some (.uninitialized, 0, [.res01 0x00007AFA7D1AD42B 0x000000007AFA7D1A]) := by decide

/-- V-MIX-1. -/
theorem test_popseed :
    seen (exec (.popseed 94824734 3 (-7)) State.reset) =
      some (.seeded, 0x00008E597138E1E1, [.res0 0x84628E5CAFD4078C]) := by decide

/-- V-MIX-5: extreme coordinates. -/
theorem test_popseed_extremes :
    seen (exec (.popseed (-1) 0x80000000 0x7FFFFFFF) (block .advanced 77)) =
      some (.seeded, 0x0000B1AD52A719F3, [.res0 0x7541B1A88C4BFF9E]) := by decide

/-- V-MIX-12, V-MIX-11. -/
theorem test_decseed_sign_extends_and_wraps :
    seen (exec (.decseed 0 0xFFFF 0xFFFF) State.reset) =
      some (.seeded, 0x0000FFFA21133E82, [.res0 0xFFFFFFFFFFFFD8EF]) ∧
    seen (exec (.decseed 0x7FFFFFFFFFFFFFFF 1 0) State.reset) =
      some (.seeded, 0x00000005DEECE66D, [.res0 0x8000000000000000]) := by decide

/-- V-FLT-5, V-FLT-6. -/
theorem test_nextf_ends_of_range :
    seen (exec .nextf (block .seeded 0x00009648A9462AA9)) =
      some (.advanced, 0x0000FFFFFF000000, [.res0 0x3F7FFFFF]) ∧
    seen (exec .nextf (block .seeded 0x00002C6F73462AA9)) =
      some (.advanced, 0x0000000001000000, [.res0 0x33800000]) := by decide

/-- V-DRAW-7, V-DRAW-3. -/
theorem test_nextip_top_bits :
    seen (exec (.nextip 16) (block .seeded 0x5DB4A0F73)) =
      some (.advanced, 0x0000F46DE06DE602, [.res0 15]) ∧
    seen (exec (.nextip 0x40000000) (block .seeded 0x5DB4A0F73)) =
      some (.advanced, 0x0000F46DE06DE602, [.res0 0x3D1B781B]) := by decide

/-- V-DRAW-26, V-DRAW-30, V-DRAW-28. -/
theorem test_nextip_refusals :
    refusal (exec (.nextip 0x80000000) (block .seeded 0x5DB4A0F73)) = some .boundNotPositive ∧
    refusal (exec (.nextip 10) State.reset) = some .boundNotPowerOfTwo ∧
    refusal (exec (.nextip 16) State.reset) = some .uninitRead := by decide

/-- V-DRAW-19: two rejections. -/
theorem test_nexti_rejects_twice :
    seen (exec (.nexti 1073741825) (block .seeded 0x5DEECE66D)) =
      some (.advanced, 0x00003D93CB7AB84E, [.res0 0x1EC9E5BD]) := by decide

/-- V-DRAW-8, V-DRAW-29. -/
theorem test_nexti_low_bits_and_refusal :
    seen (exec (.nexti 16) (block .seeded 0x5DB4A0F73)) =
      some (.advanced, 0x0000F46DE06DE602, [.res0 6]) ∧
    refusal (exec (.nexti 0) State.reset) = some .boundNotPositive := by decide

/-! ### the step, the host's program, listings -/

/-- The word of DECSEED as the first command after reset; a reserved word is refused. -/
theorem test_step_runs_fetched_word :
    seen (step (State.reset.withFetchWord 16 0x0008)) = some (.seeded, 0x5DEECE66D, [.res0 0]) ∧
    refusal (step (State.reset.withFetchWord 16 0x0000)) = some .reservedEncoding := by decide

/-- A reset input un-seeds the block: GETST after it is refused (R160, R25). -/
theorem test_reset_input_uninitializes :
    (seen (step { block .advanced 5 with inputs := [.reset] })).map Prod.fst =
      some .uninitialized := by decide

/-- The first and last steps of program P5: a refused command changes nothing and the host goes on, marked. -/
theorem test_program_goes_on_after_refusal :
    (fun r : Run => (r.state.phase, r.state.stateReg, r.state.responses, r.refusals))
      (runProgram [.command (encode .getst), .command (encode (.decseed 0 0 0)),
        .command (encode .getst)] State.reset) =
      (.seeded, 0x5DEECE66D, [.res0 0, .res0 0x5DEECE66D], [.uninitRead]) := by decide

/-- V-MIX-1, V-GSTEP-22: listing lines and their requests. -/
theorem test_listing_lines :
    (readLine "POPSEED 94824734, 3, -7 ; seeds".toList).map (·.map encode) =
      some (some ⟨0x0007, 0x0000000005A6E91E, 0x0000000000000003, 0x00000000FFFFFFF9, 0⟩) ∧
    (readLine "CSTEP.R 0x7B3B1148BAE5, 32".toList).map (·.map encode) =
      some (some ⟨0x0606, 0x00007B3B1148BAE5, 0x0000DFE05BCB1365, 0xB, 0x0000FFFFFFFFFFFF⟩) := by decide

theorem test_listing_lines_not_admitted :
    readLine "NEXTB 64".toList = none ∧ readLine "NEXTI 4294967296".toList = none ∧
    readLine "NEXTI -2147483648".toList = some (some (.nexti 0x80000000)) ∧
    readLine "SEED".toList = none ∧ readLine " ; nothing".toList = some none := by decide

/-! ### witnesses of the statements' hypotheses, each named for its statement -/

theorem test_witness_ResetIsUninitializedAndUnreadable :
    Instr.readsState .getst = true ∧ Instr.operandsAdmitted .getst = true ∧
    Instr.readsState (.nextb 32) = true ∧ Instr.operandsAdmitted (.nextb 32) = true := by decide

theorem test_witness_StepRunsTheDecodedCommand :
    (State.reset.issueFirst (encode (.seed 5))).inputs = .command (encode (.seed 5)) :: [] ∧
    decode Params.standard (encode (.seed 5)) = .ok (.seed 5) := by decide

theorem test_witness_StepWithoutInputChangesNothing : State.reset.inputs = [] := by decide

theorem test_witness_ResetInputUninitializes :
    (State.inputs { block .seeded 5 with inputs := [.reset] }) = .reset :: [] := by decide

theorem test_witness_StepTakesOneInputInOrder :
    ∃ t, step (State.reset.issueFirst (encode (.seed 5))) = .next t := next_of_seen (by decide)

theorem test_witness_GetstReturnsTheState :
    State.reset.phase = .uninitialized ∧ (block .seeded 5).phase ≠ .uninitialized := by decide

theorem test_witness_GetstReadsBackSeedAndSetst :
    (∃ t, exec (.seed 7) State.reset = .next t) ∧ ∃ t, exec (.setst 7) State.reset = .next t :=
  ⟨next_of_seen (by decide), next_of_seen (by decide)⟩

theorem test_witness_SeedingIsAnInvolutionOnLow48Bits :
    ∃ t, exec (.seed 0xFFFFFFFFFFFF) State.reset = .next t ∧
      (0xFFFFFFFFFFFF : Word).toNat < 2 ^ 48 ∧ (∃ u, exec (.seed t.stateReg) t = .next u) ∧
      ∃ u, exec (.seed 0x1000000000000) State.reset = .next u :=
  ⟨_, rfl, by decide, next_of_seen (by decide), next_of_seen (by decide)⟩

theorem test_witness_NextbStepsAndReturnsTopBits :
    (0 : BitCount).toNat = 0 ∧ 32 < (33 : BitCount).toNat ∧ 1 ≤ (1 : BitCount).toNat ∧
    (32 : BitCount).toNat ≤ 32 ∧ State.reset.phase = .uninitialized ∧
    (block .seeded 5).phase ≠ .uninitialized := by decide

theorem test_witness_NextbResultIsUnsignedBelow32Bits :
    (∃ t, exec (.nextb 31) (block .seeded 5) = .next t) ∧ (31 : BitCount).toNat ≤ 31 ∧
    (∃ t, exec (.nextb 32) (block .seeded 5) = .next t) ∧ (32 : BitCount).toNat = 32 :=
  ⟨next_of_seen (by decide), by decide, next_of_seen (by decide), by decide⟩

theorem test_witness_NextlTakesTwoSteps :
    State.reset.phase = .uninitialized ∧ (block .advanced 5).phase ≠ .uninitialized := by decide

/-- A low half that is not negative, and one that is (V-STEP-6, V-STEP-7). -/
theorem test_witness_NextlNegativeLowHalfBorrows :
    (∃ t, exec .nextl (block .seeded 25153900403) = .next t) ∧
    topNat 32 (lcgIter 2 25153900403) < 2 ^ 31 ∧
    (∃ t, exec .nextl (block .seeded 0x5DEECE66D) = .next t) ∧
    2 ^ 31 ≤ topNat 32 (lcgIter 2 0x5DEECE66D) :=
  ⟨next_of_seen (by decide), by decide, next_of_seen (by decide), by decide⟩

theorem test_witness_StepForwardComputesItsFormula :
    (0 : BitCount).toNat = 0 ∧ 48 < (49 : BitCount).toNat ∧ 1 ≤ (1 : BitCount).toNat ∧
    (48 : BitCount).toNat ≤ 48 ∧ State.reset.params.shiftKind = .arithmetic ∧
    (State.powerOn ⟨.logical, true⟩).params.shiftKind = .logical := by decide

theorem test_witness_StepReverseComputesItsFormula :
    48 < (63 : BitCount).toNat ∧ 1 ≤ (48 : BitCount).toNat ∧ (48 : BitCount).toNat ≤ 48 ∧
    (State.powerOn ⟨.arithmetic, false⟩).params.shiftKind = .arithmetic ∧
    (State.powerOn ⟨.logical, false⟩).params.shiftKind = .logical := by decide

theorem test_witness_ShiftKindsAgreeBelowBit63 :
    (0x7FFFFFFFFFFFFFFF : Word).getLsbD 63 = false ∧ 1 ≤ (1 : BitCount).toNat ∧
    (1 : BitCount).toNat ≤ 48 := by decide

/-- The canonical multiplier with its inverse (R103), and 5 with its inverse modulo `2^16` (V-GSTEP-11). -/
theorem test_witness_ForwardAndReverseStepsUndoEachOther :
    (1 ≤ 48 ∧ 48 ≤ 64 ∧ (0x5DEECE66D : Word).toNat * (0xDFE05BCB1365 : Word).toNat % 2 ^ 48 = 1 ∧
      (0xFFFFFFFFFFFF : Word).toNat < 2 ^ 48) ∧
    ((5 : Word).toNat * (0xCCCD : Word).toNat % 2 ^ 16 = 1 ∧ (0x1234 : Word).toNat < 2 ^ 16) ∧
    ((5 : Word).toNat * (0xCCCCCCCCCCCD : Word).toNat % 2 ^ 48 = 1) ∧
    ((1 : Word).toNat * (1 : Word).toNat % 2 ^ 64 = 1 ∧ (0xFFFFFFFFFFFFFFFF : Word).toNat < 2 ^ 64) ∧
    1 ≤ (1 : BitCount).toNat ∧ (48 : BitCount).toNat ≤ 48 := by decide

theorem test_witness_StepForwardGeneralizesNextb :
    1 ≤ (32 : BitCount).toNat ∧ (32 : BitCount).toNat ≤ 32 ∧
    (block .seeded 0xABCD0005DB4A0F73).phase ≠ .uninitialized := by decide

theorem test_witness_ReverseStepUndoesCanonicalDraws :
    25153900403 < 2 ^ 48 ∧ 1 ≤ (48 : BitCount).toNat ∧ (48 : BitCount).toNat ≤ 48 := by decide

/-- V-MIX-1, V-MIX-11: derived seeds that do not fit in 48 bits. -/
theorem test_witness_MixersReturnUnmaskedAndSeedMasked :
    (0x84628E5CAFD4078C : Word) =
      BitVec.ofInt 64
        ((BitVec.ofInt 64 (longInt (scrambleNat 94824734)) ||| 1).toInt * (3 : W32).toInt
          + (BitVec.ofInt 64 (longInt (lcgIter 2 (scrambleNat 94824734))) ||| 1).toInt * (-7 : W32).toInt)
        ^^^ 94824734 ∧
    (0x8000000000000000 : Word) =
      BitVec.ofInt 64 ((0x7FFFFFFFFFFFFFFF : Word).toInt + (1 : W16).toInt + 10000 * (0 : W16).toInt) := by
  decide

theorem test_witness_NextfReturnsTheQuotientPattern :
    State.reset.phase = .uninitialized ∧ (block .seeded 0).phase ≠ .uninitialized := by decide

theorem test_witness_NextfStaysBelowOne :
    ∃ t, exec .nextf (block .seeded 0x00009648A9462AA9) = .next t := next_of_seen (by decide)

theorem test_witness_NextipScalesTheTopBits :
    (0x80000000 : W32).toInt ≤ 0 ∧
    (0 < (3 : W32).toInt ∧ ¬ ∃ j, j < 31 ∧ (3 : W32).toNat = 2 ^ j) ∧
    (0x40000000 : W32).toNat = 2 ^ 30 ∧ (1 : W32).toNat = 2 ^ 0 ∧
    State.reset.phase = .uninitialized ∧ (block .seeded 5).phase ≠ .uninitialized := by decide

/-- V-DRAW-18: the first draw is rejected and the second accepted. -/
theorem test_witness_NextiReturnsTheFirstAcceptedDraw :
    (0 : W32).toInt ≤ 0 ∧ 0 < (1073741825 : W32).toInt ∧
    (block .seeded 25153900403).phase ≠ .uninitialized ∧ State.reset.phase = .uninitialized ∧
    (∀ j, j < 1 → ¬ (topNat 31 (lcgIter (j + 1) 25153900403)
      - topNat 31 (lcgIter (j + 1) 25153900403) % 1073741825 + (1073741825 - 1) < 2 ^ 31)) ∧
    topNat 31 (lcgIter 2 25153900403) - topNat 31 (lcgIter 2 25153900403) % 1073741825
      + (1073741825 - 1) < 2 ^ 31 := by decide

theorem test_witness_NextiAlwaysEnds :
    0 < (0x7FFFFFFF : W32).toInt ∧ (block .advanced 5).phase ≠ .uninitialized := by decide

theorem test_witness_AcceptanceTestIsTheIntegerCondition :
    (0x7FFFFFFF : W32).toNat < 2 ^ 31 ∧ 0 < (0x7FFFFFFF : W32).toInt := by decide

theorem test_witness_RejectedDrawsCountIsRemainder : 0 < (1073741825 : W32).toInt := by decide

theorem test_witness_BoundedDrawsStayInRange :
    (∃ t, exec (.nextip 1) (block .seeded 5) = .next t) ∧
    ∃ t, exec (.nexti 0x7FFFFFFF) (block .seeded 5) = .next t :=
  ⟨next_of_seen (by decide), next_of_seen (by decide)⟩

theorem test_witness_BoundedDrawPathsOnPowersOfTwo :
    30 ≤ 30 ∧ (0x40000000 : W32).toNat = 2 ^ 30 ∧ (1 : W32).toNat = 2 ^ 0 ∧
    (block .seeded 5).phase ≠ .uninitialized := by decide

theorem test_witness_PhaseFollowsTheTable :
    (∃ t, exec .nextl (block .seeded 5) = .next t) ∧
    (Instr.readsState .nextl = true ∧ State.reset.phase = .uninitialized ∧
      Instr.operandsAdmitted .nextl = true) ∧
    (∃ t, step { block .seeded 5 with inputs := [.reset] } = .next t) ∧
    refusal (step ((block .seeded 5).issueFirst (encode (.nextb 0)))) = some .bitsOutOfRange :=
  ⟨next_of_seen (by decide), by decide, next_of_seen (by decide), by decide⟩

theorem test_witness_SeededAndAdvancedGiveTheSameResults :
    (block .seeded 5).phase = .seeded ∧ (∃ t, exec .getst (block .seeded 5) = .next t) ∧
    refusal (exec (.nextb 0) (block .seeded 5)) = some .bitsOutOfRange :=
  ⟨by decide, next_of_seen (by decide), by decide⟩

theorem test_witness_RefusalsAreExactlyTheTable :
    (State.reset.issueFirst (encode (.nextip 10))).inputs = .command (encode (.nextip 10)) :: [] ∧
    refusal (step (State.reset.issueFirst (encode (.nextip 10)))) = some .boundNotPowerOfTwo ∧
    (State.reset.issueFirst ⟨0, 0, 0, 0, 0⟩).inputs = .command ⟨0, 0, 0, 0, 0⟩ :: [] := by decide

theorem test_witness_EveryCommandDeliversItsOneResponse :
    (∃ t, exec (.setst 5) State.reset = .next t) ∧
    ∃ t, exec (.stepF 1 2 3 4 48) State.reset = .next t :=
  ⟨next_of_seen (by decide), next_of_seen (by decide)⟩

theorem test_witness_OnlyTheListedWritersChangeState :
    ∃ t, exec (.seed 5) State.reset = .next t ∧ t.phase ≠ State.reset.phase :=
  ⟨_, rfl, by decide⟩

theorem test_witness_WritersOtherThanSetstMaskTheState :
    (∃ t, exec .nextl (block .seeded 0xFFFFFFFFFFFFFFFF) = .next t) ∧
    (∀ raw, Instr.nextl ≠ .setst raw) ∧ Instr.keepsState .nextl = false :=
  ⟨next_of_seen (by decide), fun _ => by simp, by decide⟩

theorem test_witness_DrawsDependOnLow48BitsOnly :
    Instr.isDraw .nextl = true ∧
    (0xABCD0005DB4A0F73 : Word).toNat % 2 ^ 48 = (block .seeded 0x5DB4A0F73).stateReg.toNat % 2 ^ 48 := by
  decide

theorem test_witness_CommandsOtherThanDrawsAreIdempotent :
    Instr.isDraw (.popseed 1 2 3) = false ∧ ∃ t, exec (.popseed 1 2 3) State.reset = .next t :=
  ⟨by decide, next_of_seen (by decide)⟩

theorem test_witness_UninitializedStateIsUnobservable :
    State.reset.phase = .uninitialized := by decide

theorem test_witness_RefusedCommandChangesNothingAndMarks :
    refusal (step (State.reset.issueFirst (encode .getst))) = some .uninitRead ∧
    Run.marked ⟨State.reset, [.uninitRead]⟩ = true := by decide

theorem test_witness_StepKeepsAdvancedMasked :
    (block .advanced 5).AdvancedMasked ∧
    ∃ t, step ((block .advanced 5).issueFirst (encode .nextl)) = .next t :=
  ⟨fun _ => show (5 : Word).toNat < 2 ^ 48 by decide, next_of_seen (by decide)⟩

theorem test_witness_StepKeepsMaskedRun :
    (block .seeded 0xFFFFFFFFFFFF).MaskedRun ∧
    ∃ t, step (block .seeded 0xFFFFFFFFFFFF) = .next t :=
  ⟨⟨fun _ => show (0xFFFFFFFFFFFF : Word).toNat < 2 ^ 48 by decide, fun _ h => nomatch h⟩,
    next_of_seen (by decide)⟩

/-- A program whose one SETST gives the largest masked value. -/
theorem test_witness_ResetIsMaskedRun :
    ∀ h ∈ [HostInput.command (encode (.setst 0xFFFFFFFFFFFF)), .reset],
      h.masksSetst Params.standard := by
  intro h hm
  have hd : decode Params.standard (encode (.setst 0xFFFFFFFFFFFF)) =
      .ok (.setst 0xFFFFFFFFFFFF) := by decide
  rcases List.mem_pair.mp hm with rfl | rfl
  · intro raw hraw
    rw [hd] at hraw
    injection hraw with e
    injection e with e
    rw [← e]
    decide
  · trivial

theorem test_witness_DecodeOfEncodeIsIdentity :
    Instr.wellFormed Params.standard (.nexti 5) = true ∧
    Instr.wellFormed ⟨.logical, false⟩ (.stepR 1 2 3 4 63) = true := by decide

theorem test_witness_EncodeOfDecodeClearsIgnoredBits :
    decode Params.standard ⟨0x0008, 1, 0xFFFFFFFFFFFF0003, 0xABCD000000000004, 0x55⟩ =
      .ok (.decseed 1 3 4) := by decide

theorem test_witness_DecoderIsTheMatchMaskTable :
    decode Params.standard ⟨0x03F4, 0, 0, 0, 0⟩ = .ok (.nextb 63) ∧
    Instr.wellFormed Params.standard (.nextb 63) = true ∧
    (0x03F4 : CmdWord) &&& (matchMask (.nextb 63)).2 = (matchMask (.nextb 63)).1 := by decide

theorem test_witness_ReservedEncodingsAreExactlyR61 :
    (State.reset.issueFirst ⟨0xFFFF, 0, 0, 0, 0⟩).inputs = .command ⟨0xFFFF, 0, 0, 0, 0⟩ :: [] ∧
    decode Params.standard ⟨0xFFFF, 0, 0, 0, 0⟩ = .error .zeroField := by decide

theorem test_witness_HasDrawsGovernsOpcodes9To11Only :
    (9 ≤ (0x0009 : CmdWord).toNat % 16 ∧ (0x000B : CmdWord).toNat % 16 ≤ 11 ∧
      (⟨.arithmetic, false⟩ : Params).hasDraws = false) ∧
    (0x0008 : CmdWord).toNat % 16 < 9 ∧ 11 < (0x000C : CmdWord).toNat % 16 := by decide

theorem test_witness_UnusedPortBitsAreIgnored :
    ((0x0003 : CmdWord).toNat % 16 = 3 ∧ (0x0204 : CmdWord).toNat % 16 = 4) ∧
    ((0x0001 : CmdWord).toNat % 16 = 1) ∧
    ((0x000B : CmdWord).toNat % 16 = 11 ∧
      (0xFFFFFFFF00000010 : Word).toNat % 2 ^ 32 = (0x10 : Word).toNat % 2 ^ 32) ∧
    ((0x0007 : CmdWord).toNat % 16 = 7 ∧
      (0xDEADBEEF00000003 : Word).toNat % 2 ^ 32 = (3 : Word).toNat % 2 ^ 32) ∧
    ((0x0008 : CmdWord).toNat % 16 = 8 ∧
      (0xFFFFFFFFFFFF0003 : Word).toNat % 2 ^ 16 = (3 : Word).toNat % 2 ^ 16) := by decide

theorem test_witness_ListingLinesAssembleBack :
    1 ≤ 1 ∧ -(2 ^ (1 - 1)) ≤ (-1 : Int) ∧ (-1 : Int) < 0 ∧ -(2 ^ (64 - 1)) ≤ (-9223372036854775808 : Int) := by
  decide

end Sys2Proof.Tests
end

section
/-! SUPPORT. The rules the proofs about the state share: what a step does with its next input, what a command that
completes leaves in the registers, when a reading command is refused, and how a command depends on the registers. -/

namespace Sys2Proof.Machine

variable {s t : State} {i : Instr}

/-! ### the step, forwards -/

theorem step_of_no_input (h : s.inputs = []) : step s = .next s := by
  rw [step, takeInput_eq_none.mpr h]

theorem step_of_reset {rest : List HostInput} (h : s.inputs = .reset :: rest) :
    step s = .next (State.applyReset { s with inputs := rest }) := by
  rw [step, takeInput_of_inputs h]

theorem step_of_decode_ok {r : Request} {rest : List HostInput}
    (h : s.inputs = .command r :: rest) (hd : decode s.params r = .ok i) :
    step s = exec i { s with inputs := rest } := by
  rw [step, takeInput_of_inputs h]
  simp only [hd]

theorem step_of_decode_error {r : Request} {rest : List HostInput} {e : Reserved}
    (h : s.inputs = .command r :: rest) (hd : decode s.params r = .error e) :
    step s = .refused .reservedEncoding := by
  rw [step, takeInput_of_inputs h]
  simp only [hd]

theorem advance_of_refused {r : Run} {why : Refusal} (h : step r.state = .refused why) :
    r.advance = ⟨r.state.dropInput, r.refusals ++ [why]⟩ := by
  simp only [Run.advance, h]

/-! ### a command that completes -/

theorem keepsState_eq_false_of_isDraw (h : Instr.isDraw i = true) : Instr.keepsState i = false := by
  cases i with
  | nextb | nextl | nextf | nextip | nexti => rfl
  | seed | setst | getst | stepF | stepR | popseed | decseed => cases h

/-- The commands of R24's rows "unchanged" do nothing but answer. -/
theorem exec_keepsState (h : exec i s = .next t) (hk : Instr.keepsState i = true) :
    ∃ r, t = s.respond r := by
  obtain ⟨r, -, ⟨-, ht⟩ | ⟨hd, -⟩ | ⟨raw, rfl, -⟩ | ⟨hk', -⟩⟩ := exec_eq_next_cases h
  · exact ⟨r, ht⟩
  · rw [keepsState_eq_false_of_isDraw hd] at hk
    cases hk
  · cases hk
  · rw [hk'] at hk
    cases hk

/-- No command touches the parameters or the host's further inputs (R30, R45). -/
theorem exec_frame (h : exec i s = .next t) : t.params = s.params ∧ t.inputs = s.inputs := by
  obtain ⟨r, -, ⟨-, rfl⟩ | ⟨-, g, -, rfl⟩ | ⟨raw, -, rfl⟩ | ⟨-, -, -, v, rfl⟩⟩ := exec_eq_next_cases h
  all_goals exact ⟨rfl, rfl⟩

/-- The rows of R24 for a command that completes. -/
theorem exec_phase (h : exec i s = .next t) : t.phase = Instr.phaseAfter i s.phase := by
  obtain ⟨r, -, ⟨hk, rfl⟩ | ⟨hd, g, -, rfl⟩ | ⟨raw, rfl, rfl⟩ | ⟨hk, hd, -, v, rfl⟩⟩ :=
    exec_eq_next_cases h
  · simp [Instr.phaseAfter, hk]
  · simp [Instr.phaseAfter, keepsState_eq_false_of_isDraw hd, hd]
  · rfl
  · simp [Instr.phaseAfter, hk, hd]

/-- A command that writes the registers leaves a `PHASE` of its own (R24). -/
theorem phaseAfter_of_writes (hk : Instr.keepsState i = false) (p q : Phase) :
    Instr.phaseAfter i p = Instr.phaseAfter i q := by
  simp [Instr.phaseAfter, hk]

/-- A command that writes `STATE` and is not SETST ends in the mask: of a canonical step or of the scramble (R20). -/
theorem exec_inv48 (h : exec i s = .next t) (hset : ∀ raw, i ≠ .setst raw)
    (hk : Instr.keepsState i = false) : t.Inv48 := by
  obtain ⟨r, -, ⟨hk', -⟩ | ⟨-, g, hg, rfl⟩ | ⟨raw, rfl, -⟩ | ⟨-, -, -, v, rfl⟩⟩ := exec_eq_next_cases h
  · rw [hk] at hk'
    cases hk'
  · exact hg
  · exact absurd rfl (hset raw)
  · rw [State.Inv48, respond_stateReg, seedWith_stateReg, scramble_toNat]
    exact scrambleNat_lt v

/-! ### reading while nothing has been written -/

theorem readingState_refuses {rest : Unit → Result} (h : s.phase = .uninitialized) :
    readingState s rest = .refused .uninitRead :=
  readingState_eq_refused.mpr (.inl ⟨h, rfl⟩)

theorem isPow2_iff {b : W32} : b.isPow2 = true ↔ ∃ j < 31, b = BitVec.ofNat 32 (2 ^ j) := by
  have hlt {j : Nat} (hj : j < 31) : 2 ^ j < 2 ^ 32 := Nat.pow_lt_pow_right (by omega) (by omega)
  simp only [W32.isPow2, List.any_eq_true, List.mem_range, beq_iff_eq]
  refine exists_congr fun j => and_congr_right fun hj => ?_
  rw [← BitVec.toNat_inj, BitVec.toNat_ofNat, Nat.mod_eq_of_lt (hlt hj)]

/-- The bounds NEXTIP admits pass both of its checks (R123). -/
theorem bound_checks_of_isPow2 {b : W32} (h : b.isPow2 = true) :
    boundPositive b = true ∧ boundPowerOfTwo b = true := by
  have hall : ∀ j < 31, boundPositive (BitVec.ofNat 32 (2 ^ j)) = true ∧
      boundPowerOfTwo (BitVec.ofNat 32 (2 ^ j)) = true := by decide
  obtain ⟨j, hj, rfl⟩ := isPow2_iff.mp h
  exact hall j hj

/-- R25: a reading command with admitted operands passes its operand checks and meets the check of `PHASE`. -/
theorem exec_uninitRead (hr : Instr.readsState i = true) (hs : s.phase = .uninitialized)
    (ha : i.operandsAdmitted = true) : exec i s = .refused .uninitRead := by
  cases i with
  | seed | setst | stepF | stepR | popseed | decseed => simp [Instr.readsState, Instr.isDraw] at hr
  | getst | nextl | nextf =>
    simp only [exec, execGetst, execNextl, execNextf, readingState_refuses hs]
  | nextb n =>
    rw [exec, execNextb, check_pass ((bitsInRange_eq_within 32 n).trans ha), readingState_refuses hs]
  | nextip b =>
    obtain ⟨hpos, hpow⟩ := bound_checks_of_isPow2 ha
    rw [exec, execNextip, check_pass hpos, check_pass hpow, readingState_refuses hs]
  | nexti b =>
    rw [exec, execNexti, check_pass (boundPositive_iff.mpr (of_decide_eq_true ha)),
      readingState_refuses hs]

/-! ### how a command depends on the registers -/

/-- The state with other values in its two registers. -/
def State.withRegisters (s : State) (g : Word) (p : Phase) : State :=
  { s with stateReg := g, phase := p }

section
variable (s : State) (g : Word) (p : Phase)

@[simp] theorem withRegisters_stateReg : (s.withRegisters g p).stateReg = g := rfl
@[simp] theorem withRegisters_phase : (s.withRegisters g p).phase = p := rfl
@[simp] theorem withRegisters_params : (s.withRegisters g p).params = s.params := rfl
@[simp] theorem withRegisters_advanceTo (v : Word) :
    (s.withRegisters g p).advanceTo v = s.advanceTo v := rfl
@[simp] theorem withRegisters_seedWith (v : Word) :
    (s.withRegisters g p).seedWith v = s.seedWith v := rfl
@[simp] theorem withRegisters_respond (r : Response) :
    (s.withRegisters g p).respond r = (s.respond r).withRegisters g p := rfl

end

theorem check_congr {ok : Bool} {why : Refusal} {rest rest' : Unit → Result} (h : rest () = rest' ()) :
    check ok why rest = check ok why rest' := by
  rw [check, check, h]

/-- A reading command sees of `PHASE` only whether it is `Uninitialized` (R25), and past that only what is readable. -/
theorem readingState_congr {rest rest' : Unit → Result}
    (hp : s.phase = .uninitialized ↔ t.phase = .uninitialized)
    (h : t.phase ≠ .uninitialized → rest () = rest' ()) : readingState s rest = readingState t rest' := by
  by_cases ht : t.phase = .uninitialized
  · rw [readingState_refuses ht, readingState_refuses (hp.mpr ht)]
  · rw [readingState_pass ht, readingState_pass (mt hp.mp ht), h ht]

section
variable {g : Word} {p : Phase}

/-- A canonical step depends on `STATE` by its successor only, and not on `PHASE`. -/
theorem nextBits_withRegisters (n : Nat) (hg : canonStep g = canonStep s.stateReg) :
    nextBits n (s.withRegisters g p) = nextBits n s := by
  simp only [nextBits, withRegisters_stateReg, withRegisters_advanceTo, hg]

theorem nextLong_withRegisters (hg : canonStep g = canonStep s.stateReg) :
    nextLong (s.withRegisters g p) = nextLong s := by
  simp only [nextLong, nextBits_withRegisters 32 hg]

theorem drawFuel_ne_zero : drawFuel ≠ 0 := (Nat.two_pow_pos 48).ne'

/-- NEXTI's loop draws at least once. -/
theorem drawUntilAccepted_withRegisters (bound : W32) {fuel : Nat} (hf : fuel ≠ 0)
    (hg : canonStep g = canonStep s.stateReg) :
    drawUntilAccepted bound fuel (s.withRegisters g p) = drawUntilAccepted bound fuel s := by
  obtain ⟨f, rfl⟩ := Nat.exists_eq_succ_of_ne_zero hf
  rw [drawUntilAccepted_succ, drawUntilAccepted_succ, nextBits_withRegisters 31 hg]

/-- A draw depends on the registers only by whether `STATE` is readable, and where it is by its successor. -/
theorem exec_isDraw_withRegisters (hi : Instr.isDraw i = true)
    (hp : p = .uninitialized ↔ s.phase = .uninitialized)
    (hg : s.phase ≠ .uninitialized → canonStep g = canonStep s.stateReg) :
    exec i (s.withRegisters g p) = exec i s := by
  cases i with
  | seed | setst | getst | stepF | stepR | popseed | decseed => cases hi
  | nextb n =>
    simp only [exec, execNextb]
    refine check_congr (readingState_congr hp fun h => ?_)
    rw [nextBits_withRegisters _ (hg h)]
  | nextl =>
    simp only [exec, execNextl]
    refine readingState_congr hp fun h => ?_
    rw [nextLong_withRegisters (hg h)]
  | nextf =>
    simp only [exec, execNextf]
    refine readingState_congr hp fun h => ?_
    rw [nextBits_withRegisters _ (hg h)]
  | nextip b =>
    simp only [exec, execNextip]
    refine check_congr (check_congr (readingState_congr hp fun h => ?_))
    rw [nextBits_withRegisters _ (hg h)]
  | nexti b =>
    simp only [exec, execNexti]
    refine check_congr (readingState_congr hp fun h => ?_)
    rw [drawUntilAccepted_withRegisters b drawFuel_ne_zero (hg h)]

/-- SEED, SETST, POPSEED and DECSEED overwrite both registers and read neither (R24, R113). -/
theorem exec_seeds_withRegisters (hk : Instr.keepsState i = false) (hd : Instr.isDraw i = false) :
    exec i (s.withRegisters g p) = exec i s := by
  cases i with
  | getst | stepF | stepR => cases hk
  | nextb | nextl | nextf | nextip | nexti => cases hd
  | seed raw => rfl
  | setst raw => rfl
  | popseed w x z => rw [exec, exec, execPopseed, execPopseed, withRegisters_seedWith]
  | decseed d x z => rfl

/-- A command that writes the registers does the same from any others with the same readability and successor. -/
theorem exec_writes_withRegisters (hk : Instr.keepsState i = false)
    (hp : p = .uninitialized ↔ s.phase = .uninitialized)
    (hg : s.phase ≠ .uninitialized → canonStep g = canonStep s.stateReg) :
    exec i (s.withRegisters g p) = exec i s := by
  cases hd : Instr.isDraw i with
  | true => exact exec_isDraw_withRegisters hd hp hg
  | false => exact exec_seeds_withRegisters hk hd

/-- The outcome with its next state, if it has one, changed by `f`. -/
def mapNext (f : State → State) : Result → Result
  | .next s => .next (f s)
  | .fault r => .fault r
  | .refused why => .refused why

@[simp] theorem mapNext_next (f : State → State) (s : State) : mapNext f (.next s) = .next (f s) := rfl

@[simp] theorem mapNext_refused (f : State → State) (why : Refusal) :
    mapNext f (.refused why) = .refused why := rfl

theorem mapNext_congr {f f' : State → State} {o : Result} (h : ∀ t, o = .next t → f t = f' t) :
    mapNext f o = mapNext f' o := by
  cases o with
  | next t => rw [mapNext_next, mapNext_next, h t rfl]
  | fault r => rfl
  | refused why => rfl

theorem mapNext_eq_self {f : State → State} {o : Result} (h : ∀ t, o = .next t → f t = t) :
    mapNext f o = o := by
  cases o with
  | next t => rw [mapNext_next, h t rfl]
  | fault r => rfl
  | refused why => rfl

theorem mapNext_eq_refused {f : State → State} {o : Result} {why : Refusal} :
    mapNext f o = .refused why ↔ o = .refused why := by
  cases o <;> simp [mapNext]

/-- GETST, STEP.F and STEP.R carry the registers over as they are, and what they answer depends on `STATE` only where
it is readable. -/
theorem exec_keepsState_withRegisters (hk : Instr.keepsState i = true)
    (hp : p = .uninitialized ↔ s.phase = .uninitialized)
    (hg : s.phase ≠ .uninitialized → g = s.stateReg) :
    exec i (s.withRegisters g p) = mapNext (State.withRegisters · g p) (exec i s) := by
  have stepCase (bits : BitCount) (newState : Word) :
      stepResponse bits newState (s.withRegisters g p) =
        mapNext (State.withRegisters · g p) (stepResponse bits newState s) := by
    cases hb : bitsInRange 48 bits <;> simp [stepResponse, check, hb]
  cases i with
  | seed | setst | nextb | nextl | popseed | decseed | nextf | nextip | nexti => cases hk
  | stepF a m c k b => exact stepCase b _
  | stepR a m c k b => exact stepCase b _
  | getst =>
    by_cases hs : s.phase = .uninitialized
    · rw [exec, exec, execGetst, execGetst, readingState_refuses hs,
        readingState_refuses (by simpa using hp.mpr hs), mapNext_refused]
    · rw [exec, exec, execGetst, execGetst, readingState_pass hs,
        readingState_pass (by simpa using mt hp.mp hs), mapNext_next, withRegisters_respond,
        withRegisters_stateReg, hg hs]

end

end Sys2Proof.Machine
end

section
/-! The obligations about the state (10_state.md): invariants, `PHASE`, and what depends on `STATE`. -/

namespace Sys2Proof.Machine

/-! ### invariants -/

theorem exec_keeps_advancedMasked {i : Instr} {s t : State} (hs : s.AdvancedMasked)
    (h : exec i s = .next t) : t.AdvancedMasked := by
  intro hadv
  cases hk : Instr.keepsState i with
  | true =>
    obtain ⟨r, rfl⟩ := exec_keepsState h hk
    exact hs hadv
  | false =>
    refine exec_inv48 h ?_ hk
    rintro raw rfl
    rw [exec_phase h] at hadv
    cases hadv

/-- Settles O47: an idle step changes nothing, a reset leaves `Advanced`, and a command that ends in `Advanced` was
there before or has drawn. -/
theorem stepKeepsAdvancedMasked : Obligations.StepKeepsAdvancedMasked := by
  intro s t hs h
  obtain ⟨-, rfl⟩ | ⟨rest, -, rfl⟩ | ⟨r, rest, i, -, -, he⟩ := step_eq_next_cases h
  · exact hs
  · intro hadv
    cases hadv
  · exact exec_keeps_advancedMasked (s := { s with inputs := rest }) hs he

/-- A command that completes keeps `INV48` wherever `STATE` may be read, if it is no SETST of an unmasked value. -/
theorem exec_keeps_readable_inv48 {i : Instr} {s t : State} (hs : s.phase ≠ .uninitialized → s.Inv48)
    (hraw : ∀ raw, i = .setst raw → raw.toNat < 2 ^ 48) (h : exec i s = .next t) :
    t.phase ≠ .uninitialized → t.Inv48 := by
  intro ht
  cases hk : Instr.keepsState i with
  | true =>
    obtain ⟨r, rfl⟩ := exec_keepsState h hk
    exact hs ht
  | false =>
    by_cases hset : ∃ raw, i = .setst raw
    · obtain ⟨raw, rfl⟩ := hset
      rw [exec, execSetst_eq] at h
      obtain rfl := Host.Outcome.next.inj h
      exact hraw raw rfl
    · exact exec_inv48 h (not_exists.mp hset) hk

/-- Settles O49: the inputs still to come are among the old ones, under the same parameters; an idle step changes
nothing, a reset leaves nothing readable, and a SETST taken from the inputs stores a masked value. -/
theorem stepKeepsMaskedRun : Obligations.StepKeepsMaskedRun := by
  rintro s t ⟨hreg, hin⟩ h
  obtain ⟨-, rfl⟩ | ⟨rest, hs, rfl⟩ | ⟨r, rest, i, hs, hd, he⟩ := step_eq_next_cases h
  · exact ⟨hreg, hin⟩
  · rw [hs] at hin
    exact ⟨fun hp => absurd rfl hp, (List.forall_mem_cons.mp hin).2⟩
  · rw [hs] at hin
    obtain ⟨hr, hrest⟩ := List.forall_mem_cons.mp hin
    obtain ⟨hparams, hinputs⟩ := exec_frame he
    refine ⟨exec_keeps_readable_inv48 (s := { s with inputs := rest }) hreg ?_ he, ?_⟩
    · rintro raw rfl
      exact hr raw hd
    · rw [hparams, hinputs]
      exact hrest

/-! ### PHASE and the writers of STATE -/

/-- Settles O35, row by row. -/
theorem phaseFollowsTheTable : Obligations.PhaseFollowsTheTable := by
  refine ⟨fun i s t h => exec_phase h, fun i s hr hs ha => exec_uninitRead hr hs ha, ?_, ?_⟩
  · intro s t rest hs h
    rw [step_of_reset hs] at h
    obtain rfl := Host.Outcome.next.inj h
    rfl
  · intro r why h
    rw [advance_of_refused h, dropInput_phase]

/-- A command that runs is the same in the two readable phases, but for the `PHASE` it leaves. -/
theorem exec_readable_phase {i : Instr} {s : State} {p : Phase} (hs : s.phase ≠ .uninitialized)
    (hp : p ≠ .uninitialized) :
    exec i { s with phase := p } =
      mapNext (fun t => { t with phase := Instr.phaseAfter i p }) (exec i s) := by
  have hiff : p = .uninitialized ↔ s.phase = .uninitialized := iff_of_false hp hs
  change exec i (s.withRegisters s.stateReg p) = _
  cases hk : Instr.keepsState i with
  | true =>
    rw [exec_keepsState_withRegisters hk hiff fun _ => rfl]
    refine mapNext_congr fun t ht => ?_
    obtain ⟨r, rfl⟩ := exec_keepsState ht hk
    rw [Instr.phaseAfter, if_pos hk]
    rfl
  | false =>
    rw [exec_writes_withRegisters hk hiff fun _ => rfl]
    refine (mapNext_eq_self fun t ht => ?_).symm
    rw [phaseAfter_of_writes hk p s.phase, ← exec_phase ht]

/-- Settles O36: both phases are readable, and an outcome keeps its kind and its response under `mapNext`. -/
theorem seededAndAdvancedGiveTheSameResults : Obligations.SeededAndAdvancedGiveTheSameResults := by
  intro i s hs
  have heq : exec i { s with phase := .advanced } =
      mapNext (fun t => { t with phase := Instr.phaseAfter i .advanced }) (exec i s) :=
    exec_readable_phase (by simp [hs]) (by simp)
  rw [heq]
  refine ⟨fun t h => ?_, fun why => mapNext_eq_refused.symm⟩
  rw [h, mapNext_next]

/-- Settles O41: the three excluded commands only answer. -/
theorem onlyTheListedWritersChangeState : Obligations.OnlyTheListedWritersChangeState := by
  intro i s t h hchanged
  have hk : Instr.keepsState i ≠ true := by
    intro hk
    obtain ⟨r, rfl⟩ := exec_keepsState h hk
    simp at hchanged
  refine ⟨?_, fun g m c k b => ⟨?_, ?_⟩⟩
  all_goals
    rintro rfl
    exact hk rfl

/-- Settles O42 by `exec_inv48`. -/
theorem writersOtherThanSetstMaskTheState : Obligations.WritersOtherThanSetstMaskTheState :=
  fun _ _ _ h hset hk => exec_inv48 h hset hk

/-! ### what depends on STATE -/

/-- The canonical step depends on `STATE[47:0]` alone (R35). -/
theorem canonStep_congr {g v : Word} (h : g.toNat % 2 ^ 48 = v.toNat % 2 ^ 48) :
    canonStep g = canonStep v := by
  rw [canonStep_eq_ofNat, canonStep_eq_ofNat, ← lcgNat_mod, h, lcgNat_mod]

/-- Settles O43: a draw uses `STATE` only through its canonical successor. -/
theorem drawsDependOnLow48BitsOnly : Obligations.DrawsDependOnLow48BitsOnly :=
  fun _ _ _ hi hg => exec_isDraw_withRegisters hi Iff.rfl fun _ => canonStep_congr hg

theorem sameToHost_refl (o : Result) : SameToHost o o := by
  cases o with
  | next s => exact ⟨rfl, fun _ => rfl⟩
  | fault f => rfl
  | refused why => rfl

/-- While `PHASE` is `Uninitialized` a host cannot tell from a command what `STATE` holds. -/
theorem exec_uninitialized_sameToHost (i : Instr) (g : Word) {s : State} (hs : s.phase = .uninitialized) :
    SameToHost (exec i s) (exec i (s.withRegisters g s.phase)) := by
  cases hk : Instr.keepsState i with
  | true =>
    rw [exec_keepsState_withRegisters hk Iff.rfl fun h => absurd hs h]
    cases he : exec i s with
    | next t =>
      obtain ⟨r, rfl⟩ := exec_keepsState he hk
      exact ⟨rfl, fun h => absurd hs h⟩
    | fault f => rfl
    | refused why => rfl
  | false =>
    rw [exec_writes_withRegisters hk Iff.rfl fun h => absurd hs h]
    exact sameToHost_refl _

/-- Settles O45, by the input the step takes. -/
theorem uninitializedStateIsUnobservable : Obligations.UninitializedStateIsUnobservable := by
  intro g s hs
  change SameToHost (step s) (step (s.withRegisters g s.phase))
  rcases hin : s.inputs with _ | ⟨r | _, rest⟩
  · rw [step_of_no_input hin, step_of_no_input (s := s.withRegisters g s.phase) hin]
    exact ⟨rfl, fun h => absurd hs h⟩
  · cases hd : decode s.params r with
    | error e =>
      rw [step_of_decode_error hin hd, step_of_decode_error (s := s.withRegisters g s.phase) hin hd]
      exact sameToHost_refl _
    | ok i =>
      rw [step_of_decode_ok hin hd, step_of_decode_ok (s := s.withRegisters g s.phase) hin hd]
      exact exec_uninitialized_sameToHost i g (s := { s with inputs := rest }) hs
  · rw [step_of_reset hin, step_of_reset (s := s.withRegisters g s.phase) hin]
    exact sameToHost_refl _

/-! ### reset -/

/-- Settles O1: the reading commands by the row of R24 for `Uninitialized`, the constants by evaluation. -/
theorem resetIsUninitializedAndUnreadable : Obligations.ResetIsUninitializedAndUnreadable :=
  ⟨rfl, fun _ => ⟨rfl, fun _ hr ha => exec_uninitRead hr rfl ha⟩, by decide, by decide, by decide⟩

end Sys2Proof.Machine
end

section
/-! The obligations about what a step and a command do to the machine as a whole (20_memory.md): the inputs taken, the
responses delivered, and what issuing a command again does. -/

namespace Sys2Proof.Machine

/-! ### one step -/

/-- Settles O2, by the step's rule for a decoded command. -/
theorem stepRunsTheDecodedCommand : Obligations.StepRunsTheDecodedCommand :=
  fun _ _ _ _ hs hd => step_of_decode_ok hs hd

/-- A command that completes delivers one response, of its own form, after all earlier ones (R51, R168). -/
theorem exec_responses {i : Instr} {s t : State} (h : exec i s = .next t) :
    ∃ r, Instr.answersWith i r = true ∧ t.responses = s.responses ++ [r] := by
  obtain ⟨r, ha, ⟨-, rfl⟩ | ⟨-, g, -, rfl⟩ | ⟨raw, -, rfl⟩ | ⟨-, -, -, v, rfl⟩⟩ := exec_eq_next_cases h
  all_goals exact ⟨r, ha, rfl⟩

/-- Settles O5: an idle step and a reset deliver nothing, a command its one response. -/
theorem stepTakesOneInputInOrder : Obligations.StepTakesOneInputInOrder := by
  intro s t h
  obtain ⟨hs, rfl⟩ | ⟨rest, hs, rfl⟩ | ⟨r, rest, i, hs, -, he⟩ := step_eq_next_cases h
  · exact ⟨by simp [hs], rfl, [], by simp⟩
  · exact ⟨by simp [hs], rfl, [], by simp⟩
  · obtain ⟨hparams, hinputs⟩ := exec_frame he
    obtain ⟨new, -, hresponses⟩ := exec_responses he
    exact ⟨by simp [hs, hinputs], hparams, [new], hresponses, le_rfl⟩

/-! ### a command issued again -/

theorem seedWith_eq_withRegisters (s : State) (v : Word) :
    s.seedWith v = s.withRegisters (scramble v) .seeded := rfl

/-- SEED, SETST, POPSEED and DECSEED write the same registers and give the same response from every state (R81, R82,
R111, R113). -/
theorem exec_seeds_eq {i : Instr} (hk : Instr.keepsState i = false) (hd : Instr.isDraw i = false) :
    ∃ g r, ∀ s, exec i s = .next ((s.withRegisters g .seeded).respond r) := by
  cases i with
  | getst | stepF | stepR => cases hk
  | nextb | nextl | nextf | nextip | nexti => cases hd
  | seed raw =>
    refine ⟨scramble raw, .res0 (scramble raw), fun s => ?_⟩
    rw [exec, execSeed_eq, seedWith_eq_withRegisters]
  | setst raw => exact ⟨raw, .none, fun s => rfl⟩
  | popseed w x z =>
    obtain ⟨d, hmix, -⟩ := execPopseed_eq w x z State.reset
    refine ⟨scramble d, .res0 d, fun s => ?_⟩
    obtain ⟨d', hmix', he⟩ := execPopseed_eq w x z s
    rw [exec, he, hmix'.trans hmix.symm, seedWith_eq_withRegisters]
  | decseed v x z =>
    refine ⟨scramble (decoratorMix v x z), .res0 (decoratorMix v x z), fun s => ?_⟩
    rw [exec, execDecseed, reseed_eq, seedWith_eq_withRegisters]

/-- What GETST, STEP.F and STEP.R answer is not touched by their own response. -/
theorem exec_keepsState_again {i : Instr} {s t : State} (hk : Instr.keepsState i = true)
    (h : exec i s = .next t) : ∃ r, t = s.respond r ∧ exec i t = .next (t.respond r) := by
  have stepCase {bits : BitCount} {newState : Word} (h : stepResponse bits newState s = .next t) :
      ∃ r, t = s.respond r ∧ stepResponse bits newState t = .next (t.respond r) := by
    obtain ⟨hbits, rfl⟩ := stepResponse_eq_next.mp h
    exact ⟨_, rfl, stepResponse_eq_next.mpr ⟨hbits, rfl⟩⟩
  cases i with
  | seed | setst | nextb | nextl | popseed | decseed | nextf | nextip | nexti => cases hk
  | getst =>
    obtain ⟨hs, rfl⟩ := execGetst_eq_next.mp h
    exact ⟨_, rfl, execGetst_eq_next.mpr ⟨hs, rfl⟩⟩
  | stepF => exact stepCase h
  | stepR => exact stepCase h

/-- Settles O44: a command that is no draw leaves the registers alone, or gives them values of its own that it would
give them again. -/
theorem commandsOtherThanDrawsAreIdempotent : Obligations.CommandsOtherThanDrawsAreIdempotent := by
  intro i s t hd h
  cases hk : Instr.keepsState i with
  | true =>
    obtain ⟨r, rfl, hagain⟩ := exec_keepsState_again hk h
    exact ⟨r, rfl, hagain⟩
  | false =>
    obtain ⟨g, r, heq⟩ := exec_seeds_eq hk hd
    obtain rfl := Host.Outcome.next.inj ((heq s).symm.trans h)
    exact ⟨r, rfl, heq _⟩

end Sys2Proof.Machine
end

section
/-! SUPPORT. The opcode map as a table (R52, R56, R59): the row of a command by its fields, which words meet it, and
what the decoder does with a word that meets a row and with one that meets none. -/

namespace Sys2Proof

/-! ### the rows -/

/-- The `OP` of a command's row (R56). -/
def Instr.opcode : Instr → BitVec 4
  | .seed _ => 0x1
  | .setst _ => 0x2
  | .getst => 0x3
  | .nextb _ => 0x4
  | .nextl => 0x5
  | .stepF _ _ _ _ _ => 0x6
  | .stepR _ _ _ _ _ => 0x6
  | .popseed _ _ _ => 0x7
  | .decseed _ _ _ => 0x8
  | .nextf => 0x9
  | .nextip _ => 0xA
  | .nexti _ => 0xB

/-- The `DIR` of a command's row (R57). -/
def Instr.direction : Instr → BitVec 1
  | .stepR _ _ _ _ _ => 1
  | _ => 0

/-- The opcodes whose commands take a bit count from `N` (R61). -/
def takesCount (op : BitVec 4) : Bool := op == 4 || op == 6

/-- The mask of a row: `N` is free where a count is taken, and every other bit is fixed (R59). -/
def rowMask (op : BitVec 4) : CmdWord := if takesCount op then 0xFC0F else 0xFFFF

/-- The word meets the match and mask of the command's row (R59). -/
def Meets (w : CmdWord) (i : Instr) : Prop := w &&& (matchMask i).2 = (matchMask i).1

/-- The command of the same row with the operands the request gives it (R53, R54). -/
def Instr.readFrom (r : Request) : Instr → Instr
  | .seed _ => .seed r.opa
  | .setst _ => .setst r.opa
  | .getst => .getst
  | .nextb _ => .nextb (fieldN r.cmd)
  | .nextl => .nextl
  | .stepF _ _ _ _ _ => .stepF r.opa r.opb r.opc r.opd (fieldN r.cmd)
  | .stepR _ _ _ _ _ => .stepR r.opa r.opb r.opc r.opd (fieldN r.cmd)
  | .popseed _ _ _ => .popseed r.opa (low32 r.opb) (low32 r.opc)
  | .decseed _ _ _ => .decseed r.opa (low16 r.opb) (low16 r.opc)
  | .nextf => .nextf
  | .nextip _ => .nextip (low32 r.opa)
  | .nexti _ => .nexti (low32 r.opa)

/-- A row is known from its `OP` and `DIR`. -/
theorem matchMask_eq (i : Instr) : matchMask i =
    (commandWord i.opcode 0 i.direction, rowMask i.opcode) := by
  cases i <;> simp only [matchMask, Instr.opcode, Instr.direction] <;> decide

theorem matchMask_readFrom (r : Request) (i : Instr) : matchMask (i.readFrom r) = matchMask i := by
  cases i <;> rfl

/-! ### which words meet a row -/

theorem commandWord_eq_iff {w : CmdWord} {op : BitVec 4} {n : BitCount} {dir : BitVec 1} :
    w = commandWord op n dir ↔
      fieldZero w = 0 ∧ fieldOp w = op ∧ fieldN w = n ∧ fieldDir w = dir := by
  constructor
  · rintro rfl
    simp
  · rintro ⟨hzero, rfl, rfl, rfl⟩
    exact (commandWord_of_fields w hzero).symm

/-- The mask of the rows that take a count drops `N` and keeps the other fields (R59). -/
theorem and_FC0F_eq_iff {w : CmdWord} {op : BitVec 4} {dir : BitVec 1} :
    w &&& 0xFC0F#16 = commandWord op 0 dir ↔ fieldZero w = 0 ∧ fieldOp w = op ∧ fieldDir w = dir := by
  have hop : fieldOp (w &&& 0xFC0F#16) = fieldOp w := BitVec.extractLsb'_and.trans BitVec.and_allOnes
  have hn : fieldN (w &&& 0xFC0F#16) = 0 := BitVec.extractLsb'_and.trans BitVec.and_zero
  have hdir : fieldDir (w &&& 0xFC0F#16) = fieldDir w := BitVec.extractLsb'_and.trans BitVec.and_allOnes
  have hzero : fieldZero (w &&& 0xFC0F#16) = fieldZero w := BitVec.extractLsb'_and.trans BitVec.and_allOnes
  simp [commandWord_eq_iff, hop, hn, hdir, hzero]

/-- R59's match and mask in terms of R52's fields. -/
theorem meets_iff {w : CmdWord} {i : Instr} :
    Meets w i ↔ fieldZero w = 0 ∧ fieldOp w = i.opcode ∧ fieldDir w = i.direction ∧
      (takesCount i.opcode = false → fieldN w = 0) := by
  rw [Meets, matchMask_eq, rowMask]
  cases takesCount i.opcode with
  | true => simpa using and_FC0F_eq_iff
  | false =>
    have hmask : w &&& 0xFFFF#16 = w := BitVec.and_allOnes
    simp [hmask, commandWord_eq_iff, and_comm]

/-- The word a command encodes to meets its row. -/
theorem meets_encode (i : Instr) : Meets (encode i).cmd i := by
  cases i with
  | seed raw => exact (Laws.EncodedWord.seed raw).1
  | setst raw => exact (Laws.EncodedWord.setst raw).1
  | getst => exact Laws.EncodedWord.getst.1
  | nextb n => exact (Laws.EncodedWord.nextb n).1
  | nextl => exact Laws.EncodedWord.nextl.1
  | stepF g m c k b => exact (Laws.EncodedWord.stepF g m c k b).1
  | stepR g m c k b => exact (Laws.EncodedWord.stepR g m c k b).1
  | popseed v x z => exact (Laws.EncodedWord.popseed v x z).1
  | decseed v x z => exact (Laws.EncodedWord.decseed v x z).1
  | nextf => exact Laws.EncodedWord.nextf.1
  | nextip b => exact (Laws.EncodedWord.nextip b).1
  | nexti b => exact (Laws.EncodedWord.nexti b).1

/-! ### the decoder's branches -/

section
variable {p : Params} {w : CmdWord} {i j : Instr}

theorem plain_eq_ok : plain w i = .ok j ↔ fieldDir w = 0 ∧ fieldN w = 0 ∧ i = j := by
  unfold plain
  split_ifs <;> simp_all

theorem forwardOnly_eq_ok : forwardOnly w i = .ok j ↔ fieldDir w = 0 ∧ i = j := by
  unfold forwardOnly
  split_ifs <;> simp_all

theorem derivedDraw_eq_ok :
    derivedDraw p w i = .ok j ↔ p.hasDraws = true ∧ fieldDir w = 0 ∧ fieldN w = 0 ∧ i = j := by
  unfold derivedDraw
  split_ifs <;> simp_all [plain_eq_ok]

end

/-- A word that meets the row of a command the block has decodes to that row, with the operands on its ports. -/
theorem decode_of_meets {p : Params} {r : Request} {i : Instr} (hi : i.wellFormed p = true)
    (hm : Meets r.cmd i) : decode p r = .ok (i.readFrom r) := by
  obtain ⟨hzero, hop, hdir, hn⟩ := meets_iff.mp hm
  unfold decode
  rw [hzero, hop]
  cases i with
  | seed | setst | getst | nextl | popseed | decseed => exact plain_eq_ok.mpr ⟨hdir, hn rfl, rfl⟩
  | nextb => exact forwardOnly_eq_ok.mpr ⟨hdir, rfl⟩
  | stepF => exact if_pos hdir
  | stepR =>
    have hreverse : fieldDir r.cmd ≠ 0 := by simp [hdir, Instr.direction]
    exact if_neg hreverse
  | nextf | nextip | nexti => exact derivedDraw_eq_ok.mpr ⟨hi, hdir, hn rfl, rfl⟩

/-- A word decodes only to a command the block has, whose row it meets, with the operands on its ports. -/
theorem of_decode_eq_ok {p : Params} {r : Request} {i : Instr} (h : decode p r = .ok i) :
    i.wellFormed p = true ∧ Meets r.cmd i ∧ i.readFrom r = i := by
  unfold decode at h
  split at h
  · cases h
  rename_i hzero
  rw [not_not] at hzero
  have meets {i : Instr} (hop : (fieldOp r.cmd).toNat = i.opcode.toNat) (hdir : fieldDir r.cmd = i.direction)
      (hn : takesCount i.opcode = false → fieldN r.cmd = 0) : Meets r.cmd i :=
    meets_iff.mpr ⟨hzero, BitVec.eq_of_toNat_eq hop, hdir, hn⟩
  split at h
  case h_4 hop =>
    obtain ⟨hdir, rfl⟩ := forwardOnly_eq_ok.mp h
    exact ⟨rfl, meets hop hdir nofun, rfl⟩
  case h_6 hop =>
    split at h
    · next hdir =>
      cases h
      exact ⟨rfl, meets hop hdir nofun, rfl⟩
    · next hdir =>
      cases h
      exact ⟨rfl, meets hop ((BitVec.eq_zero_or_eq_one _).resolve_left hdir) nofun, rfl⟩
  case h_9 hop | h_10 hop | h_11 hop =>
    obtain ⟨hdraws, hdir, hn, rfl⟩ := derivedDraw_eq_ok.mp h
    exact ⟨hdraws, meets hop hdir (fun _ => hn), rfl⟩
  case h_12 => cases h
  case h_1 hop | h_2 hop | h_3 hop | h_5 hop | h_7 hop | h_8 hop =>
    obtain ⟨hdir, hn, rfl⟩ := plain_eq_ok.mp h
    exact ⟨rfl, meets hop hdir (fun _ => hn), rfl⟩

section
variable (p : Params) (w : CmdWord) (f : Instr → Instr) (i : Instr)

theorem plain_map : (plain w i).map f = plain w (f i) := by
  unfold plain
  split_ifs <;> rfl

theorem forwardOnly_map : (forwardOnly w i).map f = forwardOnly w (f i) := by
  unfold forwardOnly
  split_ifs <;> rfl

theorem derivedDraw_map : (derivedDraw p w i).map f = derivedDraw p w (f i) := by
  unfold derivedDraw
  split_ifs
  · rfl
  · exact plain_map w f i

end

/-- The word alone decides whether a request decodes, and to which row; the ports only fill the operands in. -/
theorem decode_of_same_cmd {p : Params} {r q : Request} (hcmd : r.cmd = q.cmd) :
    decode p r = (decode p q).map (Instr.readFrom r) := by
  unfold decode
  rw [hcmd]
  split
  · rfl
  split
  case h_4 => rw [forwardOnly_map, Instr.readFrom, hcmd]
  case h_6 => split_ifs <;> simp only [Except.map, Instr.readFrom, hcmd]
  case h_9 | h_10 | h_11 => rw [derivedDraw_map, Instr.readFrom]
  case h_12 => rfl
  all_goals rw [plain_map, Instr.readFrom]

/-- Requests with one word decode alike when the commands of the word's opcode read the same operands from both. -/
theorem decode_congr {p : Params} {r q : Request} (hcmd : r.cmd = q.cmd)
    (h : ∀ i : Instr, i.opcode.toNat = r.cmd.toNat % 16 → i.readFrom r = i.readFrom q) :
    decode p r = decode p q := by
  rw [decode_of_same_cmd hcmd]
  cases hq : decode p q with
  | error e => rfl
  | ok i =>
    obtain ⟨-, hm, hread⟩ := of_decode_eq_ok hq
    obtain ⟨-, hop, -⟩ := meets_iff.mp hm
    have hi : i.opcode.toNat = r.cmd.toNat % 16 := by rw [← hop, fieldOp_toNat, hcmd]
    exact congrArg Except.ok ((h i hi).trans hread)

/-! ### reserved encodings -/

section
variable {p : Params} {w : CmdWord} {i : Instr}

theorem fieldDir_ne_zero_iff : fieldDir w ≠ 0 ↔ w.toNat / 1024 % 2 = 1 := by
  rw [Ne, ← BitVec.toNat_inj, fieldDir_toNat]
  change ¬ _ = 0 ↔ _
  omega

theorem fieldN_ne_zero_iff : fieldN w ≠ 0 ↔ w.toNat / 16 % 64 ≠ 0 := by
  rw [Ne, ← BitVec.toNat_inj, fieldN_toNat]
  rfl

theorem fieldZero_ne_zero_iff : fieldZero w ≠ 0 ↔ w.toNat / 2048 ≠ 0 := by
  rw [Ne, ← BitVec.toNat_inj, fieldZero_toNat]
  rfl

theorem plain_reserved_iff :
    (∃ e, plain w i = .error e) ↔ w.toNat / 1024 % 2 = 1 ∨ w.toNat / 16 % 64 ≠ 0 := by
  rw [← fieldDir_ne_zero_iff, ← fieldN_ne_zero_iff, plain]
  split_ifs <;> simp_all

theorem forwardOnly_reserved_iff : (∃ e, forwardOnly w i = .error e) ↔ w.toNat / 1024 % 2 = 1 := by
  rw [← fieldDir_ne_zero_iff, forwardOnly]
  split_ifs <;> simp_all

theorem derivedDraw_reserved_iff : (∃ e, derivedDraw p w i = .error e) ↔
    w.toNat / 1024 % 2 = 1 ∨ w.toNat / 16 % 64 ≠ 0 ∨ p.hasDraws = false := by
  rw [derivedDraw]
  split_ifs with hdraws
  · simp [hdraws]
  · simp [hdraws, plain_reserved_iff]

end

/-- R61, by the numbers in the word's fields. -/
theorem decode_reserved_iff {p : Params} {r : Request} :
    (∃ e, decode p r = .error e) ↔
      (r.cmd.toNat % 16 = 0 ∨ 12 ≤ r.cmd.toNat % 16 ∨
        r.cmd.toNat / 2048 ≠ 0 ∨
        (r.cmd.toNat / 1024 % 2 = 1 ∧ r.cmd.toNat % 16 ≠ 6) ∨
        (r.cmd.toNat / 16 % 64 ≠ 0 ∧ r.cmd.toNat % 16 ≠ 4 ∧ r.cmd.toNat % 16 ≠ 6) ∨
        (9 ≤ r.cmd.toNat % 16 ∧ r.cmd.toNat % 16 ≤ 11 ∧ p.hasDraws = false)) := by
  unfold decode
  split
  · next hzero => simp [fieldZero_ne_zero_iff.mp hzero]
  rename_i hzero
  rw [fieldZero_ne_zero_iff, not_not] at hzero
  rw [fieldOp_toNat]
  split
  case h_4 hop =>
    rw [forwardOnly_reserved_iff]
    omega
  case h_6 hop =>
    split <;> exact iff_of_false (by simp) (by omega)
  case h_9 hop | h_10 hop | h_11 hop =>
    simp [derivedDraw_reserved_iff, hop, hzero]
  case h_12 =>
    simp only [imp_false] at *
    have hop : r.cmd.toNat % 16 = 0 ∨ 12 ≤ r.cmd.toNat % 16 := by omega
    exact iff_of_true ⟨_, rfl⟩ (or_assoc.mp (.inl hop))
  all_goals
    rw [plain_reserved_iff]
    omega

/-- `HAS_DRAWS` is looked at for opcodes 9 to 11 only (R62). -/
theorem decode_params_congr {p q : Params} {r : Request}
    (hop : r.cmd.toNat % 16 < 9 ∨ 11 < r.cmd.toNat % 16) : decode p r = decode q r := by
  unfold decode
  split
  · rfl
  split
  case h_9 h9 | h_10 h9 | h_11 h9 =>
    rw [fieldOp_toNat] at h9
    omega
  all_goals rfl

end Sys2Proof
end

section
/-! The obligations about the encoding (30_encoding.md): the decoder and the encoder against the opcode map, reserved
encodings, ignored port bits, and the listing lines. -/

namespace Sys2Proof.Machine

/-! ### encoding and decoding -/

theorem readFrom_encode (i : Instr) : i.readFrom (encode i) = i := by
  cases i <;> simp [encode, Instr.readFrom]

/-- Settles O51: the word a command encodes to meets the command's own row, and the ports give its operands back. -/
theorem decodeOfEncodeIsIdentity : Obligations.DecodeOfEncodeIsIdentity := by
  intro p i hi
  rw [decode_of_meets hi (meets_encode i), readFrom_encode]

/-- A request that meets a row is the word the row's command encodes to, with the count of the request. -/
theorem encode_readFrom_cmd {r : Request} {i : Instr} (hm : Meets r.cmd i) :
    (encode (i.readFrom r)).cmd = r.cmd := by
  obtain ⟨hzero, hop, hdir, hn⟩ := meets_iff.mp hm
  cases i with
  | nextb | stepF | stepR => exact (commandWord_eq_iff.mpr ⟨hzero, hop, rfl, hdir⟩).symm
  | seed | setst | getst | nextl | popseed | decseed | nextf | nextip | nexti =>
    exact (commandWord_eq_iff.mpr ⟨hzero, hop, hn rfl, hdir⟩).symm

/-- The low `k` bits of a port, put back on a port, are the port under their mask (R54). -/
theorem setWidth_setWidth_eq_and {k : Nat} (hk : k ≤ 64) (v : Word) :
    (v.setWidth k).setWidth 64 = v &&& BitVec.ofNat 64 (2 ^ k - 1) := by
  apply BitVec.eq_of_toNat_eq
  have hlt : v.toNat % 2 ^ k < 2 ^ 64 := (Nat.mod_le ..).trans_lt v.isLt
  rw [and_lowMask_toNat v hk, BitVec.toNat_setWidth, BitVec.toNat_setWidth, Nat.mod_eq_of_lt hlt]

theorem setWidth_low32 (v : Word) : (low32 v).setWidth 64 = v &&& 0xFFFFFFFF#64 :=
  setWidth_setWidth_eq_and (by decide) v

theorem setWidth_low16 (v : Word) : (low16 v).setWidth 64 = v &&& 0xFFFF#64 :=
  setWidth_setWidth_eq_and (by decide) v

theorem and_ones (v : Word) : v &&& 0xFFFFFFFFFFFFFFFF#64 = v := BitVec.and_allOnes

/-- Settles O52: a request that decodes meets the row of its command, and each operand is its port or the low bits of
it. -/
theorem encodeOfDecodeClearsIgnoredBits : Obligations.EncodeOfDecodeClearsIgnoredBits := by
  intro p r i h
  obtain ⟨hi, hm, hread⟩ := of_decode_eq_ok h
  refine ⟨hi, hread ▸ encode_readFrom_cmd hm, ?_⟩
  rw [← hread]
  cases i with
  | seed | setst =>
    exact ⟨0xFFFFFFFFFFFFFFFF, 0, 0, 0, by simp [encode, Instr.readFrom, and_ones]⟩
  | getst | nextb | nextl | nextf =>
    exact ⟨0, 0, 0, 0, by simp [encode, Instr.readFrom]⟩
  | stepF | stepR =>
    exact ⟨0xFFFFFFFFFFFFFFFF, 0xFFFFFFFFFFFFFFFF, 0xFFFFFFFFFFFFFFFF, 0xFFFFFFFFFFFFFFFF,
      by simp [encode, Instr.readFrom, and_ones]⟩
  | popseed =>
    exact ⟨0xFFFFFFFFFFFFFFFF, 0xFFFFFFFF, 0xFFFFFFFF, 0,
      by simp [encode, Instr.readFrom, and_ones, setWidth_low32]⟩
  | decseed =>
    exact ⟨0xFFFFFFFFFFFFFFFF, 0xFFFF, 0xFFFF, 0,
      by simp [encode, Instr.readFrom, and_ones, setWidth_low16]⟩
  | nextip | nexti =>
    exact ⟨0xFFFFFFFF, 0, 0, 0, by simp [encode, Instr.readFrom, setWidth_low32]⟩

/-- Settles O53: a row is known from `OP` and `DIR`, which a word that meets it shows. -/
theorem decoderIsTheMatchMaskTable : Obligations.DecoderIsTheMatchMaskTable := by
  refine ⟨fun p r i h => ?_, fun p r i hi hm => ⟨_, decode_of_meets hi hm, matchMask_readFrom r i⟩,
    fun i j w hmi hmj => ?_⟩
  · obtain ⟨-, hm, -⟩ := of_decode_eq_ok h
    exact hm
  · obtain ⟨-, hopi, hdiri, -⟩ := meets_iff.mp hmi
    obtain ⟨-, hopj, hdirj, -⟩ := meets_iff.mp hmj
    rw [matchMask_eq, matchMask_eq, ← hopi, ← hdiri, hopj, hdirj]

/-- Settles O54, by the grounds of each branch of the decoder and the step's rule for a reserved encoding. -/
theorem reservedEncodingsAreExactlyR61 : Obligations.ReservedEncodingsAreExactlyR61 :=
  fun _ _ _ hs => ⟨decode_reserved_iff, fun ⟨_, he⟩ => step_of_decode_error hs he⟩

/-- Settles O55: absence of the draws is a ground of R61 for opcodes 9 to 11, and nothing else looks at it. -/
theorem hasDrawsGovernsOpcodes9To11Only : Obligations.HasDrawsGovernsOpcodes9To11Only :=
  fun _ _ _ => ⟨fun hlo hhi hdraws => decode_reserved_iff.mpr (by simp [hlo, hhi, hdraws]), decode_params_congr⟩

/-! ### ignored bits -/

theorem low32_congr {v u : Word} (h : v.toNat % 2 ^ 32 = u.toNat % 2 ^ 32) : low32 v = low32 u :=
  BitVec.eq_of_toNat_eq (by rw [low32_toNat, low32_toNat, h])

theorem low16_congr {v u : Word} (h : v.toNat % 2 ^ 16 = u.toNat % 2 ^ 16) : low16 v = low16 u :=
  BitVec.eq_of_toNat_eq (by rw [low16_toNat, low16_toNat, h])

/-- Settles O56: for each opcode, the commands of the opcode read the same operands from both requests. -/
theorem unusedPortBitsAreIgnored : Obligations.UnusedPortBitsAreIgnored := by
  intro p r q hcmd
  refine ⟨fun hop => ?_, fun hop ha => ?_, fun hop ha => ?_, fun hop ha hb hc => ?_, fun hop ha hb hc => ?_⟩
  all_goals
    refine decode_congr hcmd fun i hi => ?_
    rw [← hi] at hop
  · cases i with
    | getst | nextl | nextf => rfl
    | nextb => simp only [Instr.readFrom, hcmd]
    | _ => simp [Instr.opcode] at hop
  · cases i with
    | seed | setst => simp only [Instr.readFrom, ha]
    | _ => simp [Instr.opcode] at hop
  · cases i with
    | nextip | nexti => simp only [Instr.readFrom, low32_congr ha]
    | _ => simp [Instr.opcode] at hop
  · cases i with
    | popseed => simp only [Instr.readFrom, ha, low32_congr hb, low32_congr hc]
    | _ => simp [Instr.opcode] at hop
  · cases i with
    | decseed => simp only [Instr.readFrom, ha, low16_congr hb, low16_congr hc]
    | _ => simp [Instr.opcode] at hop

/-! ### listing lines -/

theorem literal_toNat {w : Nat} (v : BitVec w) : literal w v.toNat = some v := by
  have hlt : (v.toNat : Int) < 2 ^ w := by exact_mod_cast v.isLt
  have hlow : 0 ≤ (2 : Int) ^ (w - 1) := by positivity
  rw [literal, if_pos (by omega), BitVec.ofInt_natCast, BitVec.ofNat_toNat, BitVec.setWidth_eq]

theorem literalCount_toNat (n : BitCount) : literalCount n.toNat = some n := by
  have hlt := n.isLt
  rw [literalCount, if_pos (by omega), BitVec.ofInt_natCast, BitVec.ofNat_toNat, BitVec.setWidth_eq]

/-- A command's own listing line assembles to the command. -/
theorem assemble_disassemble (i : Instr) : assemble (disassemble i).1 (disassemble i).2 = some i := by
  cases i <;> simp [assemble, disassemble, expand, assembleCore, literal_toNat, literalCount_toNat]

/-- Settles O58: an unsigned operand is read back as it is, and `2^w` is nothing modulo `2^w`. -/
theorem listingLinesAssembleBack : Obligations.ListingLinesAssembleBack := by
  refine ⟨assemble_disassemble, fun w v hw hlow hneg => ?_⟩
  have hpow : (2 : Int) ^ w = 2 * 2 ^ (w - 1) := by
    rw [← pow_succ', Nat.sub_add_cancel hw]
  have hpos : 0 < (2 : Int) ^ (w - 1) := by positivity
  have hlit : literal w v = some (BitVec.ofInt w v) := if_pos (by omega)
  have hwrap : BitVec.ofInt w (v + 2 ^ w) = BitVec.ofInt w v := by
    apply BitVec.eq_of_toInt_eq
    rw [BitVec.toInt_ofInt, BitVec.toInt_ofInt]
    exact_mod_cast Int.add_bmod_right v (2 ^ w)
  refine ⟨?_, _, hlit, BitVec.toInt_ofInt_eq_self hw hlow (by omega)⟩
  rw [hlit, literal, if_pos (by omega), hwrap]

/-- Settles O59: a pseudo-instruction's line expands to the listing line of the canonical STEP. -/
theorem pseudoInstructionsAreCanonicalSteps : Obligations.PseudoInstructionsAreCanonicalSteps :=
  ⟨fun state bits =>
    ⟨assemble_disassemble (.stepF state MULT ADD MASK48 bits),
      assemble_disassemble (.stepR state MULT_INVERSE ADD MASK48 bits)⟩,
    by decide, by decide⟩

/-! ### sample words -/

/-- Settles O57, by decoding each word. -/
theorem sampleWordsDecode : Obligations.SampleWordsDecode := by
  unfold Obligations.SampleWordsDecode
  decide

/-! ### responses -/

/-- No command takes a free value. -/
theorem exec_freeCount {i : Instr} {s t : State} (h : exec i s = .next t) : t.freeCount = s.freeCount := by
  obtain ⟨r, -, ⟨-, rfl⟩ | ⟨-, g, -, rfl⟩ | ⟨raw, -, rfl⟩ | ⟨-, -, -, v, rfl⟩⟩ := exec_eq_next_cases h
  all_goals rfl

/-- Settles O40, by the frame of a command that completes and the one response it delivers. -/
theorem everyCommandDeliversItsOneResponse : Obligations.EveryCommandDeliversItsOneResponse := by
  intro i s t h
  obtain ⟨hparams, hinputs⟩ := exec_frame h
  obtain ⟨r, hform, hresponses⟩ := exec_responses h
  exact ⟨hparams, hinputs, exec_freeCount h, r, hresponses, hform⟩

end Sys2Proof.Machine
end

section
/-! The obligations about seeding and the accessors (40_seed_xor_scrambler.md): the scramble is undone by a second one
on 48 bits, and what SEED, SETST and GETST leave and answer. -/

namespace Sys2Proof.Machine

/-! ### the scramble on words (R80) -/

theorem and_xor_distrib_right (v w m : Word) : (v ^^^ w) &&& m = (v &&& m) ^^^ (w &&& m) := by
  apply BitVec.eq_of_toNat_eq
  simp only [BitVec.toNat_and, BitVec.toNat_xor, Nat.and_xor_distrib_right]

/-- `MULT` lies within the 48 bits kept, so a second XOR with it leaves the low 48 bits of the raw seed. -/
theorem scramble_xor_MULT (v : Word) : scramble v ^^^ MULT = v &&& MASK48 := by
  have hwithin : MULT &&& MASK48 = MULT := by decide
  rw [scramble, and_xor_distrib_right, hwithin, BitVec.xor_assoc, BitVec.xor_self, BitVec.xor_zero]

theorem scramble_scramble (v : Word) : scramble (scramble v) = v &&& MASK48 := by
  rw [scramble, scramble_xor_MULT, BitVec.and_assoc, BitVec.and_self]

theorem and_MASK48_eq_self {v : Word} (h : v.toNat < 2 ^ 48) : v &&& MASK48 = v := by
  rw [← BitVec.toNat_inj, mask48_toNat, Nat.mod_eq_of_lt h]

/-- XOR with `MULT` loses nothing, so the scramble separates exactly what the mask separates. -/
theorem scramble_eq_scramble_iff {v w : Word} :
    scramble v = scramble w ↔ v.toNat % 2 ^ 48 = w.toNat % 2 ^ 48 := by
  rw [← BitVec.xor_left_inj MULT, scramble_xor_MULT, scramble_xor_MULT, ← BitVec.toNat_inj,
    mask48_toNat, mask48_toNat]

/-! ### the states SEED and SETST leave, and what GETST answers -/

section
variable {s t : State} {raw : Word}

theorem exec_seed_eq_next :
    exec (.seed raw) s = .next t ↔ (s.seedWith raw).respond (.res0 (scramble raw)) = t := by
  rw [exec, execSeed_eq, Host.Outcome.next.injEq]

theorem exec_setst_eq_next :
    exec (.setst raw) s = .next t ↔ (s.withRegisters raw .seeded).respond .none = t := by
  rw [exec, execSetst_eq, Host.Outcome.next.injEq]
  rfl

theorem stateReg_of_exec_seed (h : exec (.seed raw) s = .next t) : t.stateReg = scramble raw := by
  rw [← exec_seed_eq_next.mp h, respond_stateReg, seedWith_stateReg]

theorem stateReg_of_exec_setst (h : exec (.setst raw) s = .next t) : t.stateReg = raw := by
  rw [← exec_setst_eq_next.mp h, respond_stateReg, withRegisters_stateReg]

theorem exec_getst_of_readable (h : s.phase ≠ .uninitialized) :
    exec .getst s = .next (s.respond (.res0 s.stateReg)) := by
  rw [exec, execGetst, readingState_pass h]

theorem exec_getst_of_seeded {v : Word} (hp : s.phase = .seeded) (hv : s.stateReg = v) :
    exec .getst s = .next (s.respond (.res0 v)) := by
  rw [exec_getst_of_readable (by simp [hp]), hv]

end

/-! ### the obligations -/

/-- Settles O10: a seeded state holds the scramble of its raw seed, so each fact is one about the scramble. -/
theorem seedingIsAnInvolutionOnLow48Bits : Obligations.SeedingIsAnInvolutionOnLow48Bits := by
  intro a b s t u ht
  rw [stateReg_of_exec_seed ht]
  refine ⟨fun ha hu => ?_, ?_, fun hu => ?_⟩
  · rw [stateReg_of_exec_seed hu, scramble_scramble, and_MASK48_eq_self ha]
  · rw [← mask48_toNat, ← scramble_xor_MULT]
    rfl
  · rw [stateReg_of_exec_seed hu, scramble_eq_scramble_iff]

/-- Settles O6: SEED's meaning, with the scramble written as the number it denotes. -/
theorem seedScramblesAndReturnsTheState : Obligations.SeedScramblesAndReturnsTheState := by
  intro raw s
  refine ⟨rfl, ?_⟩
  rw [← scramble_eq_ofNat]
  exact execSeed_eq raw s

/-- Settles O7, by SETST's meaning. -/
theorem setstStoresAllBits : Obligations.SetstStoresAllBits :=
  fun raw s => ⟨rfl, execSetst_eq raw s⟩

/-- Settles O8, by the two outcomes of the check of `PHASE`. -/
theorem getstReturnsTheState : Obligations.GetstReturnsTheState :=
  fun _ => ⟨rfl, fun h => exec_uninitRead rfl h rfl, exec_getst_of_readable⟩

/-- Settles O9: SEED and SETST both leave `PHASE` at `Seeded`, where GETST answers what they wrote. -/
theorem getstReadsBackSeedAndSetst : Obligations.GetstReadsBackSeedAndSetst := by
  intro v s t
  constructor
  · intro h
    exact exec_getst_of_seeded (exec_phase h) (stateReg_of_exec_seed h)
  · intro h
    exact exec_getst_of_seeded (exec_phase h) (stateReg_of_exec_setst h)

end Sys2Proof.Machine
end

section
/-! The obligations about the stepper (41_lcg_state_stepper.md): what NEXTB and NEXTL draw from the canonical step, the
formulas of STEP.F and STEP.R under both kinds of shift, and that a reverse step undoes a forward one. -/

namespace Sys2Proof.Machine

variable {s : State}

/-! ### each command's outcomes -/

theorem bitsInRange_eq_false {hi : Nat} {n : BitCount} (h : n.toNat = 0 ∨ hi < n.toNat) :
    bitsInRange hi n = false := by
  rw [← Bool.not_eq_true, bitsInRange_iff]
  omega

theorem exec_nextb_outOfRange {n : BitCount} (h : n.toNat = 0 ∨ 32 < n.toNat) :
    exec (.nextb n) s = .refused .bitsOutOfRange := by
  rw [exec, execNextb, check_eq_refused]
  exact .inl ⟨bitsInRange_eq_false h, rfl⟩

theorem exec_nextb_of_readable {n : BitCount} (h1 : 1 ≤ n.toNat) (h32 : n.toNat ≤ 32)
    (hs : s.phase ≠ .uninitialized) :
    exec (.nextb n) s = .next ((s.advanceTo (canonStep s.stateReg)).respond
      (.res0 (sext32 (topBits n.toNat (canonStep s.stateReg))))) :=
  execNextb_eq_next.mpr ⟨⟨h1, h32⟩, hs, rfl⟩

theorem exec_nextl_of_readable (hs : s.phase ≠ .uninitialized) :
    exec .nextl s = .next ((s.advanceTo (BitVec.ofNat 64 (lcgIter 2 s.stateReg.toNat))).respond
      (.res0 (BitVec.ofInt 64 (longInt s.stateReg.toNat)))) := by
  rw [exec, execNextl, readingState_pass hs, nextLong_eq]

/-- An arithmetic shift divides the signed number, rounding down (R98). -/
theorem extracted_arithmetic (bits : BitCount) (v : Word) :
    extracted .arithmetic bits v = BitVec.ofInt 64 (v.toInt / 2 ^ (48 - bits.toNat)) := by
  have hdiv : (v.sshiftRight (48 - bits.toNat)).toInt = v.toInt / 2 ^ (48 - bits.toNat) := by
    rw [BitVec.toInt_sshiftRight, Int.shiftRight_eq_div_pow, Nat.cast_pow, Nat.cast_ofNat]
  rw [extracted, ← hdiv, BitVec.ofInt_toInt]

/-- A logical shift divides the unsigned number (R98). -/
theorem extracted_logical (bits : BitCount) (v : Word) :
    extracted .logical bits v = BitVec.ofNat 64 (v.toNat / 2 ^ (48 - bits.toNat)) := by
  rw [extracted, ← Nat.shiftRight_eq_div_pow, ← BitVec.toNat_ushiftRight, BitVec.ofNat_toNat,
    BitVec.setWidth_eq]

/-- A value with its sign bit clear shifts alike under both kinds (R98). -/
theorem extracted_eq_logical {v : Word} (h : v.msb = false) (kind : ShiftKind) (bits : BitCount) :
    extracted kind bits v = v >>> (48 - bits.toNat) := by
  cases kind with
  | arithmetic => exact BitVec.sshiftRight_eq_of_msb_false h
  | logical => rfl

theorem msb_and_eq_false {mask : Word} (h : mask.msb = false) (v : Word) : (v &&& mask).msb = false := by
  rw [BitVec.msb_and, h, Bool.and_false]

theorem stepResponse_outOfRange {bits : BitCount} {newState : Word} (h : bits.toNat = 0 ∨ 48 < bits.toNat) :
    stepResponse bits newState s = .refused .bitsOutOfRange := by
  rw [stepResponse, check_eq_refused]
  exact .inl ⟨bitsInRange_eq_false h, rfl⟩

theorem stepResponse_inRange {bits : BitCount} (newState : Word) (h1 : 1 ≤ bits.toNat) (h48 : bits.toNat ≤ 48) :
    stepResponse bits newState s =
      .next (s.respond (.res01 newState (extracted s.params.shiftKind bits newState))) :=
  stepResponse_eq_next.mpr ⟨⟨h1, h48⟩, rfl⟩

section
variable {x m c mask v : Word} {bits : BitCount}

theorem exec_stepF_of_eq (hv : forwardState x m c mask = v) (h1 : 1 ≤ bits.toNat) (h48 : bits.toNat ≤ 48) :
    exec (.stepF x m c mask bits) s =
      .next (s.respond (.res01 v (extracted s.params.shiftKind bits v))) := by
  rw [exec, execStepF, hv, stepResponse_inRange v h1 h48]

theorem exec_stepR_of_eq (hv : reverseState x m c mask = v) (h1 : 1 ≤ bits.toNat) (h48 : bits.toNat ≤ 48) :
    exec (.stepR x m c mask bits) s =
      .next (s.respond (.res01 v (extracted s.params.shiftKind bits v))) := by
  rw [exec, execStepR, hv, stepResponse_inRange v h1 h48]

end

/-- What STEP.F and STEP.R share: all but the formula of the new state (R94 to R99). -/
theorem stepResponse_computes {bits : BitCount} {newState : Word} (h1 : 1 ≤ bits.toNat) (h48 : bits.toNat ≤ 48) :
    ∃ extr : Word,
      (s.params.shiftKind = .arithmetic →
        extr = BitVec.ofInt 64 (newState.toInt / 2 ^ (48 - bits.toNat))) ∧
      (s.params.shiftKind = .logical →
        extr = BitVec.ofNat 64 (newState.toNat / 2 ^ (48 - bits.toNat))) ∧
      stepResponse bits newState s =
        .next { s with responses := s.responses ++ [.res01 newState extr] } :=
  ⟨_, fun h => by rw [h, extracted_arithmetic], fun h => by rw [h, extracted_logical],
    stepResponse_inRange newState h1 h48⟩

/-- Below bit 63 every instance responds alike (R98). -/
theorem stepResponse_of_msb_false {bits : BitCount} {newState : Word} (h : newState.msb = false)
    (h1 : 1 ≤ bits.toNat) (h48 : bits.toNat ≤ 48) (kind : ShiftKind) :
    stepResponse bits newState { s with params := { s.params with shiftKind := kind } } =
      .next { s with
        params := { s.params with shiftKind := kind },
        responses := s.responses ++ [.res01 newState (newState >>> (48 - bits.toNat))] } := by
  rw [stepResponse_inRange newState h1 h48, extracted_eq_logical h]
  rfl

/-! ### the drawn bits as numbers (R90) -/

theorem canonStep_lt (g : Word) : (canonStep g).toNat < 2 ^ 48 := by
  rw [canonStep_toNat]
  exact lcgNat_lt _

theorem ofNat_topNat_toNat {n g : Nat} (hn : n ≤ 32) (hg : g < 2 ^ 48) :
    (BitVec.ofNat 32 (topNat n g)).toNat = topNat n g := by
  have hlt : topNat n g < 2 ^ 32 := (topNat_lt hg (by omega)).trans_le (Nat.pow_le_pow_right (by omega) hn)
  rw [BitVec.toNat_ofNat, Nat.mod_eq_of_lt hlt]

/-- Up to 31 bits never reach the sign bit of the `i32`. -/
theorem sext32_topBits_toNat {n : Nat} {g : Word} (hn : n ≤ 31) (hg : g.toNat < 2 ^ 48) :
    (sext32 (topBits n g)).toNat = topNat n g.toNat := by
  have hnat : (topBits n g).toNat = topNat n g.toNat := by
    rw [topBits_eq_ofNat, ofNat_topNat_toNat (by omega) hg]
  have hlt : topNat n g.toNat < 2 ^ 31 :=
    (topNat_lt hg (by omega)).trans_le (Nat.pow_le_pow_right (by omega) hn)
  have hmsb : (topBits n g).msb = false := by
    rw [BitVec.msb_eq_decide, hnat]
    exact decide_eq_false (by omega)
  rw [sext32, BitVec.signExtend_eq_setWidth_of_msb_false hmsb, BitVec.toNat_setWidth, hnat,
    Nat.mod_eq_of_lt (by omega)]

theorem sext32_toInt (v : W32) : (sext32 v).toInt = v.toInt := BitVec.toInt_signExtend_of_le (by omega)

theorem setWidth_sext32 (v : W32) : (sext32 v).setWidth 32 = v := by
  ext i hi
  rw [sext32, BitVec.getElem_setWidth, BitVec.getLsbD_signExtend, if_pos hi, BitVec.getLsbD_eq_getElem hi,
    decide_eq_true (by omega), Bool.true_and]

/-- The sign bit of a 32-bit draw is bit 47 of the state. -/
theorem msb_topBits_32 (g : Word) : (topBits 32 g).msb = g.getLsbD 47 := by
  simp [topBits, trunc32, BitVec.msb_eq_getLsbD_last]

/-! ### the two halves of NEXTL's result (R92) -/

section
variable (hi lo : W32)

/-- The sign of the high half is lost in wrapping at 64 bits; that of the low half is not. -/
theorem ofInt_halves_toNat :
    ((BitVec.ofInt 64 (hi.toInt * 2 ^ 32 + lo.toInt)).toNat : Int) = (hi.toNat * 2 ^ 32 + lo.toInt) % 2 ^ 64 := by
  have hwrap : (hi.toInt * 2 ^ 32 + lo.toInt) % 2 ^ 64 = (hi.toNat * 2 ^ 32 + lo.toInt) % 2 ^ 64 := by
    rw [BitVec.toInt_eq_toNat_cond hi]
    split <;> omega
  rw [BitVec.toNat_ofInt]
  omega

theorem ofInt_halves_mod : (BitVec.ofInt 64 (hi.toInt * 2 ^ 32 + lo.toInt)).toNat % 2 ^ 32 = lo.toNat := by
  have hnat := ofInt_halves_toNat hi lo
  have hsign := BitVec.toInt_eq_toNat_cond lo
  split at hsign <;> omega

theorem ofInt_halves_div :
    (BitVec.ofInt 64 (hi.toInt * 2 ^ 32 + lo.toInt)).toNat / 2 ^ 32 =
      if lo.toNat < 2 ^ 31 then hi.toNat else (hi.toNat + (2 ^ 32 - 1)) % 2 ^ 32 := by
  have hhi := hi.isLt
  have hlo := lo.isLt
  have hnat := ofInt_halves_toNat hi lo
  have hsign := BitVec.toInt_eq_toNat_cond lo
  split
  case isTrue h =>
    rw [if_pos (by omega)] at hsign
    omega
  case isFalse h =>
    rw [if_neg (by omega)] at hsign
    omega

end

/-! ### forward and reverse steps modulo a power of two -/

theorem ofInt_toNat (v : Word) : BitVec.ofInt 64 v.toNat = v := by
  rw [BitVec.ofInt_natCast, BitVec.ofNat_toNat, BitVec.setWidth_eq]

theorem forwardState_eq_ofInt (x m c mask : Word) :
    forwardState x m c mask = BitVec.ofInt 64 (x.toNat * m.toNat + c.toNat) &&& mask := by
  rw [forwardState, BitVec.ofInt_add, BitVec.ofInt_mul, ofInt_toNat, ofInt_toNat, ofInt_toNat]

/-- The reverse formula on any integers its operands denote, signed or unsigned. -/
theorem reverseState_ofInt (x m c : Int) (mask : Word) :
    reverseState (BitVec.ofInt 64 x) (BitVec.ofInt 64 m) (BitVec.ofInt 64 c) mask =
      BitVec.ofInt 64 ((x - c) * m) &&& mask := by
  rw [reverseState, BitVec.ofInt_mul, Int.sub_eq_add_neg, BitVec.ofInt_add, BitVec.ofInt_neg,
    BitVec.sub_eq_add_neg]

/-- The mask `2^k − 1` of the general round trip. -/
def lowMask (k : Nat) : Word := BitVec.ofNat 64 (2 ^ k - 1)

section
variable {k : Nat} {m m' c x : Word}

theorem lowMask_toNat_lt (hk : k ≤ 64) (v : Word) : (v &&& lowMask k).toNat < 2 ^ k := by
  rw [lowMask, and_lowMask_toNat v hk]
  exact Nat.mod_lt _ (Nat.two_pow_pos k)

/-- Wrapping at 64 bits is lost under a mask of at most 64 bits. -/
theorem ofInt_and_lowMask_modEq (hk : k ≤ 64) (z : Int) :
    ((BitVec.ofInt 64 z &&& lowMask k).toNat : Int) ≡ z [ZMOD 2 ^ k] := by
  have hdvd : (2 ^ k : Int) ∣ 2 ^ 64 := pow_dvd_pow 2 hk
  have hnat : ((BitVec.ofInt 64 z).toNat : Int) = z % 2 ^ 64 := by
    rw [BitVec.toNat_ofInt]
    omega
  rw [lowMask, and_lowMask_toNat _ hk, Int.natCast_mod, hnat, Nat.cast_pow, Nat.cast_ofNat]
  exact (Int.mod_modEq _ _).trans ((Int.mod_modEq z _).of_dvd hdvd)

theorem forwardState_modEq (hk : k ≤ 64) :
    ((forwardState x m c (lowMask k)).toNat : Int) ≡ x.toNat * m.toNat + c.toNat [ZMOD 2 ^ k] := by
  rw [forwardState_eq_ofInt]
  exact ofInt_and_lowMask_modEq hk _

theorem reverseState_modEq (hk : k ≤ 64) :
    ((reverseState x m c (lowMask k)).toNat : Int) ≡ (x.toNat - c.toNat) * m.toNat [ZMOD 2 ^ k] := by
  have h := reverseState_ofInt x.toNat m.toNat c.toNat (lowMask k)
  rw [ofInt_toNat, ofInt_toNat, ofInt_toNat] at h
  rw [h]
  exact ofInt_and_lowMask_modEq hk _

/-- Words below `2^k` are told apart modulo `2^k`. -/
theorem eq_of_toNat_modEq {v w : Word} (hv : v.toNat < 2 ^ k) (hw : w.toNat < 2 ^ k)
    (h : (v.toNat : Int) ≡ w.toNat [ZMOD 2 ^ k]) : v = w := by
  have hnat : v.toNat ≡ w.toNat [MOD 2 ^ k] := Int.natCast_modEq_iff.mp (by exact_mod_cast h)
  exact BitVec.eq_of_toNat_eq (hnat.eq_of_lt_of_lt hv hw)

/-- The two forms in which multipliers are given as inverse come to one modulo `2^k`. -/
theorem inverse_modEq (hk : 1 ≤ k)
    (h : m.toNat * m'.toNat % 2 ^ k = 1 ∨ (k ≤ 48 ∧ m.toNat * m'.toNat % 2 ^ 48 = 1)) :
    (m.toNat * m'.toNat : Int) ≡ 1 [ZMOD 2 ^ k] := by
  have hnat : m.toNat * m'.toNat ≡ 1 [MOD 2 ^ k] := by
    rcases h with h | ⟨hle, h⟩
    · exact h.trans (Nat.mod_eq_of_lt (Nat.one_lt_two_pow (by omega))).symm
    · exact Nat.ModEq.of_dvd (pow_dvd_pow 2 hle) h
  exact_mod_cast Int.natCast_modEq_iff.mpr hnat

theorem reverseState_forwardState (hk : k ≤ 64) (hinv : (m.toNat * m'.toNat : Int) ≡ 1 [ZMOD 2 ^ k])
    (hx : x.toNat < 2 ^ k) :
    reverseState (forwardState x m c (lowMask k)) m' c (lowMask k) = x := by
  refine eq_of_toNat_modEq (lowMask_toNat_lt hk _) hx ?_
  calc ((reverseState (forwardState x m c (lowMask k)) m' c (lowMask k)).toNat : Int)
      ≡ ((forwardState x m c (lowMask k)).toNat - c.toNat) * m'.toNat [ZMOD 2 ^ k] := reverseState_modEq hk
    _ ≡ (x.toNat * m.toNat + c.toNat - c.toNat) * m'.toNat [ZMOD 2 ^ k] :=
        ((forwardState_modEq hk).sub_right _).mul_right _
    _ = x.toNat * (m.toNat * m'.toNat) := by ring
    _ ≡ x.toNat * 1 [ZMOD 2 ^ k] := hinv.mul_left _
    _ = x.toNat := mul_one _

theorem forwardState_reverseState (hk : k ≤ 64) (hinv : (m.toNat * m'.toNat : Int) ≡ 1 [ZMOD 2 ^ k])
    (hx : x.toNat < 2 ^ k) :
    forwardState (reverseState x m' c (lowMask k)) m c (lowMask k) = x := by
  refine eq_of_toNat_modEq (lowMask_toNat_lt hk _) hx ?_
  calc ((forwardState (reverseState x m' c (lowMask k)) m c (lowMask k)).toNat : Int)
      ≡ (reverseState x m' c (lowMask k)).toNat * m.toNat + c.toNat [ZMOD 2 ^ k] := forwardState_modEq hk
    _ ≡ (x.toNat - c.toNat) * m'.toNat * m.toNat + c.toNat [ZMOD 2 ^ k] :=
        ((reverseState_modEq hk).mul_right _).add_right _
    _ = (x.toNat - c.toNat) * (m.toNat * m'.toNat) + c.toNat := by ring
    _ ≡ (x.toNat - c.toNat) * 1 + c.toNat [ZMOD 2 ^ k] := (hinv.mul_left _).add_right _
    _ = x.toNat := by ring

end

/-! ### the canonical parameters -/

theorem MULT_inverse_modEq : (MULT.toNat * MULT_INVERSE.toNat : Int) ≡ 1 [ZMOD 2 ^ 48] := by decide

theorem lcgIter_lt_of_lt {x : Nat} (hx : x < 2 ^ 48) (k : Nat) : lcgIter k x < 2 ^ 48 := by
  rcases eq_or_ne k 0 with rfl | hk
  · rwa [lcgIter_zero]
  · exact lcgIter_lt hk

/-- The inverse of R103 undoes the canonical step of R90 on 48-bit states. -/
theorem reverseState_canonStep {g : Word} (hg : g.toNat < 2 ^ 48) :
    reverseState (canonStep g) MULT_INVERSE ADD MASK48 = g := by
  rw [canonStep, MASK48_eq]
  exact reverseState_forwardState (m := MULT) (by omega) MULT_inverse_modEq hg

/-! ### the obligations -/

/-- Settles O18: the outcomes of both commands are those of the two formulas, each of which undoes the other. -/
theorem forwardAndReverseStepsUndoEachOther : Obligations.ForwardAndReverseStepsUndoEachOther := by
  intro k m m' c x b b' s hk hk64 hinv hx h1 h48 h1' h48'
  have hone := inverse_modEq hk hinv
  have hFR := reverseState_forwardState (c := c) hk64 hone hx
  have hRF := forwardState_reverseState (c := c) hk64 hone hx
  exact ⟨⟨_, _, _, exec_stepF_of_eq rfl h1 h48, exec_stepR_of_eq hFR h1' h48'⟩,
    ⟨_, _, _, exec_stepR_of_eq rfl h1 h48, exec_stepF_of_eq hRF h1' h48'⟩⟩

/-- Settles O20: the state after `k + 1` steps is the canonical successor of the one after `k`. -/
theorem reverseStepUndoesCanonicalDraws : Obligations.ReverseStepUndoesCanonicalDraws := by
  intro k x b s hx h1 h48
  have hlt := lcgIter_lt_of_lt hx k
  have hnat : (BitVec.ofNat 64 (lcgIter k x)).toNat = lcgIter k x := by
    rw [BitVec.toNat_ofNat, Nat.mod_eq_of_lt (by omega)]
  have hsucc : BitVec.ofNat 64 (lcgIter (k + 1) x) = canonStep (BitVec.ofNat 64 (lcgIter k x)) := by
    rw [canonStep_eq_ofNat, hnat, lcgIter_succ]
  rw [hsucc]
  exact ⟨_, exec_stepR_of_eq (reverseState_canonStep (hnat.trans_lt hlt)) h1 h48⟩

/-- Settles O11, by the outcomes of the two checks and the canonical step as the recurrence. -/
theorem nextbStepsAndReturnsTopBits : Obligations.NextbStepsAndReturnsTopBits := by
  intro n s
  refine ⟨commandWord_toNat 4 n 0, exec_nextb_outOfRange, fun h1 h32 hs => ?_, fun h1 h32 hs => ?_⟩
  · exact exec_uninitRead rfl hs (decide_eq_true ⟨h1, h32⟩)
  · rw [exec_nextb_of_readable h1 h32 hs, topBits_eq_ofNat, canonStep_toNat, canonStep_eq_ofNat]
    rfl

/-- Settles O12: the result is the sign extension of the top bits of a 48-bit state. -/
theorem nextbResultIsUnsignedBelow32Bits : Obligations.NextbResultIsUnsignedBelow32Bits := by
  intro n s t h
  obtain ⟨-, -, rfl⟩ := execNextb_eq_next.mp h
  rw [respond_stateReg, advanceTo_stateReg]
  have hg := canonStep_lt s.stateReg
  refine ⟨_, rfl, fun hn => ?_, fun hn => ?_⟩
  · rw [sext32_topBits_toNat hn hg]
    exact ⟨rfl, topNat_lt hg (by omega)⟩
  · rw [hn, sext32_toInt, ← msb_topBits_32, BitVec.msb_eq_toInt, decide_eq_true_iff]
    exact ⟨Iff.rfl, BitVec.le_toInt _, BitVec.toInt_lt⟩

/-- Settles O13, by the check of `PHASE` and the two steps as an iteration of the recurrence. -/
theorem nextlTakesTwoSteps : Obligations.NextlTakesTwoSteps :=
  fun _ => ⟨rfl, fun hs => exec_uninitRead rfl hs rfl, exec_nextl_of_readable⟩

/-- Settles O14, by the two halves of a sum of 32-bit draws. -/
theorem nextlNegativeLowHalfBorrows : Obligations.NextlNegativeLowHalfBorrows := by
  intro s t h
  obtain ⟨-, rfl⟩ := execNextl_eq_next.mp h
  have hhi := ofNat_topNat_toNat le_rfl (lcgNat_lt s.stateReg.toNat)
  have hlo := ofNat_topNat_toNat le_rfl (lcgIter_lt (x := s.stateReg.toNat) two_ne_zero)
  refine ⟨BitVec.ofInt 64 (longInt s.stateReg.toNat), by simp [nextLong_eq], ?_⟩
  rw [longInt, ofInt_halves_mod, ofInt_halves_div, hhi, hlo]
  exact ⟨rfl, fun h => if_pos h, fun h => if_neg (by omega)⟩

/-- Settles O15: STEP's response for the forward formula, carried over from the integers. -/
theorem stepForwardComputesItsFormula : Obligations.StepForwardComputesItsFormula := by
  intro x m c mask b s
  refine ⟨commandWord_toNat 6 b 0, stepResponse_outOfRange, fun h1 h48 => ?_⟩
  have hformula : forwardState x m c mask =
      BitVec.ofNat 64 (x.toNat * m.toNat + c.toNat) &&& mask := by
    rw [forwardState_eq_ofInt, ← BitVec.ofInt_natCast, Nat.cast_add, Nat.cast_mul]
  exact ⟨_, (stepResponse_computes h1 h48).imp fun _ h => ⟨hformula, h⟩⟩

/-- Settles O16: STEP's response for the reverse formula, carried over from the integers. -/
theorem stepReverseComputesItsFormula : Obligations.StepReverseComputesItsFormula := by
  intro x m c mask b s
  refine ⟨(commandWord_toNat 6 b 1).trans (Nat.add_right_comm ..), stepResponse_outOfRange, fun h1 h48 => ?_⟩
  have hformula := reverseState_ofInt x.toInt m.toInt c.toInt mask
  rw [BitVec.ofInt_toInt, BitVec.ofInt_toInt, BitVec.ofInt_toInt] at hformula
  exact ⟨_, (stepResponse_computes h1 h48).imp fun _ h => ⟨hformula, h⟩⟩

/-- Settles O17: both formulas end in the mask, so bit 63 of the new state is clear. -/
theorem shiftKindsAgreeBelowBit63 : Obligations.ShiftKindsAgreeBelowBit63 := by
  intro g m c mask b s hmask h1 h48
  have masked := msb_and_eq_false ((BitVec.msb_eq_getLsbD_last mask).trans hmask)
  exact ⟨⟨_, stepResponse_of_msb_false (masked _) h1 h48⟩,
    ⟨_, stepResponse_of_msb_false (masked _) h1 h48⟩⟩

/-- Settles O19: the forward formula at the canonical parameters is the canonical step, which leaves bit 63 clear, so
that either shift gives the bits NEXTB cuts off. -/
theorem stepForwardGeneralizesNextb : Obligations.StepForwardGeneralizesNextb := by
  intro n s h1 h32 hs
  have hmsb : (canonStep s.stateReg).msb = false := msb_and_eq_false (by decide) _
  refine ⟨canonStep s.stateReg, _, _, exec_nextb_of_readable h1 h32 hs,
    exec_stepF_of_eq rfl h1 (by omega), ?_⟩
  rw [extracted_eq_logical hmsb, setWidth_sext32]
  rfl

end Sys2Proof.Machine
end

section
/-! The obligations about the mixer (42_coord_seed_mixer.md): both commands re-seed with a value that depends on their
operands alone, and that value is a formula in the integers the operands denote. -/

namespace Sys2Proof.Machine

/-! ### the two formulas in unbounded integers (R110, R111) -/

theorem sext32_eq_ofInt (v : W32) : sext32 v = BitVec.ofInt 64 v.toInt := by
  rw [← sext32_toInt, BitVec.ofInt_toInt]

theorem sext16_eq_ofInt (v : W16) : sext16 v = BitVec.ofInt 64 v.toInt := by
  have htoInt : (sext16 v).toInt = v.toInt := BitVec.toInt_signExtend_of_le (by omega)
  rw [← htoInt, BitVec.ofInt_toInt]

/-- The products and the sum wrap once, at 64 bits, before the exclusive OR. -/
theorem populationMix_eq_ofInt (s1 s2 w : Word) (x z : W32) :
    populationMix s1 s2 w x z = BitVec.ofInt 64 (s1.toInt * x.toInt + s2.toInt * z.toInt) ^^^ w := by
  rw [populationMix, BitVec.ofInt_add, BitVec.ofInt_mul, BitVec.ofInt_mul, BitVec.ofInt_toInt,
    BitVec.ofInt_toInt, ← sext32_eq_ofInt, ← sext32_eq_ofInt]

theorem decoratorMix_eq_ofInt (v : Word) (index step : W16) :
    decoratorMix v index step = BitVec.ofInt 64 (v.toInt + index.toInt + 10000 * step.toInt) := by
  have hscale : (10000 : Word) = BitVec.ofInt 64 10000 := by decide
  rw [decoratorMix, BitVec.ofInt_add, BitVec.ofInt_add, BitVec.ofInt_mul, BitVec.ofInt_toInt,
    ← sext16_eq_ofInt, ← sext16_eq_ofInt, hscale]

theorem populationMix_zero_zero (s1 s2 w : Word) : populationMix s1 s2 w 0 0 = w := by
  have hzero : sext32 0 = 0#64 := by decide
  rw [populationMix, hzero, BitVec.mul_zero, BitVec.mul_zero, BitVec.add_zero, BitVec.zero_xor]

theorem decoratorMix_zero_zero (v : Word) : decoratorMix v 0 0 = v := by
  have hzero : sext16 0 = 0#64 := by decide
  rw [decoratorMix, hzero, BitVec.mul_zero, BitVec.add_zero, BitVec.add_zero]

/-! ### both commands re-seed -/

/-- The long of two canonical steps from the state `g`, forced odd: a factor of POPSEED (R110). -/
def oddLong (g : Nat) : Word := BitVec.ofInt 64 (longInt g) ||| 1

/-- POPSEED's four steps start from the scrambled world seed; only the re-seed is left of them. -/
theorem exec_popseed (w : Word) (x z : W32) (s : State) :
    exec (.popseed w x z) s = reseed
      (populationMix (oddLong (scrambleNat w)) (oddLong (lcgIter 2 (scrambleNat w))) w x z) s := by
  obtain ⟨derived, rfl, he⟩ := execPopseed_eq w x z s
  exact he

theorem exec_decseed (v : Word) (index step : W16) (s : State) :
    exec (.decseed v index step) s = reseed (decoratorMix v index step) s := rfl

theorem reseed_eq_ofNat (derived : Word) (s : State) :
    reseed derived s =
      .next { s with
        stateReg := BitVec.ofNat 64 (scrambleNat derived)
        phase := .seeded
        responses := s.responses ++ [.res0 derived] } := by
  rw [reseed_eq, ← scramble_eq_ofNat]
  rfl

/-- But for the response, a re-seed leaves what SEED of the same value leaves (R112). -/
theorem exec_seed_reseed (derived : Word) (s : State) :
    ∃ u : State, exec (.seed derived) s = .next u ∧
      reseed derived s = .next { u with responses := s.responses ++ [.res0 derived] } :=
  ⟨_, execSeed_eq derived s, rfl⟩

/-! ### the obligations -/

/-- Settles O21: the re-seed of POPSEED, with its value carried over from the integers. -/
theorem popseedMixesFourCanonicalSteps : Obligations.PopseedMixesFourCanonicalSteps := by
  intro w x z s
  refine ⟨rfl, _, _, _, rfl, rfl, rfl, ?_⟩
  rw [exec_popseed, populationMix_eq_ofInt, reseed_eq_ofNat, oddLong, oddLong]

/-- Settles O22: the re-seed of DECSEED, with its value carried over from the integers. -/
theorem decseedAddsAndReseeds : Obligations.DecseedAddsAndReseeds := by
  intro v index step s
  refine ⟨rfl, _, rfl, ?_⟩
  rw [exec_decseed, decoratorMix_eq_ofInt, reseed_eq_ofNat]

/-- Settles O24: either command is a re-seed with the value of its formula, and a re-seed is SEED but for the
response. -/
theorem mixersReturnUnmaskedAndSeedMasked : Obligations.MixersReturnUnmaskedAndSeedMasked := by
  intro i derived s hi
  have hexec : exec i s = reseed derived s := by
    rcases hi with ⟨w, x, z, rfl, rfl⟩ | ⟨v, index, step, rfl, rfl⟩
    · rw [exec_popseed, populationMix_eq_ofInt, oddLong, oddLong]
    · rw [exec_decseed, decoratorMix_eq_ofInt]
  obtain ⟨u, hseed, hu⟩ := exec_seed_reseed derived s
  have hreg : u.stateReg.toNat = scrambleNat derived := by
    rw [stateReg_of_exec_seed hseed, scramble_toNat]
  exact ⟨u, hseed, hreg, hreg.trans_lt (scrambleNat_lt derived), hexec.trans hu⟩

/-- Settles O23: neither command is a draw or keeps the registers, so it does not read them. -/
theorem mixersIgnoreThePriorState : Obligations.MixersIgnoreThePriorState :=
  fun _ _ _ _ _ _ _ _ _ => ⟨exec_seeds_withRegisters rfl rfl, exec_seeds_withRegisters rfl rfl⟩

/-- Settles O25: with zero coordinates or indices either command re-seeds with its first operand. -/
theorem mixersWithZeroOperandsAreSeed : Obligations.MixersWithZeroOperandsAreSeed := by
  intro v s
  obtain ⟨u, hseed, hu⟩ := exec_seed_reseed v s
  rw [exec_popseed, populationMix_zero_zero, exec_decseed, decoratorMix_zero_zero]
  exact ⟨u, hseed, hu, hu⟩

end Sys2Proof.Machine
end

section
/-! The obligations about the derived draws (43_derived_draws.md): the binary32 pattern of NEXTF, the scaled draw of
NEXTIP, and the acceptance test, the remainder and the loop of NEXTI. -/

namespace Sys2Proof.Machine

variable {s : State}

/-! ### drawn bits and narrow results as numbers (R55, R90) -/

theorem topBits_canonStep_toNat {n : Nat} (hn : n ≤ 32) (g : Word) :
    (topBits n (canonStep g)).toNat = topNat n (lcgNat g.toNat) := by
  rw [topBits_eq_ofNat, canonStep_toNat, ofNat_topNat_toNat hn (lcgNat_lt _)]

theorem topBits_canonStep_lt {n : Nat} (hn : n ≤ 32) (g : Word) : (topBits n (canonStep g)).toNat < 2 ^ n := by
  rw [topBits_canonStep_toNat hn]
  exact topNat_lt (lcgNat_lt _) (by omega)

/-- A number below `2^31` is extended with zeros. -/
theorem sext32_eq_ofNat {v : W32} (h : v.toNat < 2 ^ 31) : sext32 v = BitVec.ofNat 64 v.toNat := by
  have hmsb : v.msb = false := BitVec.msb_eq_false_iff_two_mul_lt.mpr (by omega)
  rw [sext32, BitVec.signExtend_eq_setWidth_of_msb_false hmsb, BitVec.ofNat_toNat]

/-- A result below a positive bound is in the range of R127, read signed. -/
theorem sext32_mem_range {v bound : W32} (hpos : 0 < bound.toInt) (h : v.toNat < bound.toNat) :
    0 ≤ (sext32 v).toInt ∧ (sext32 v).toInt < bound.toInt := by
  obtain ⟨hint, -, hlt⟩ := toNat_of_positive hpos
  rw [sext32_toInt, BitVec.toInt_eq_toNat_of_lt (by omega), hint]
  omega

/-! ### the pattern of NEXTF (R121, R122) -/

theorem floatPattern_zero : floatPattern 0 = 0 := rfl

/-- Shifted up to bit 23, the leading bit of `k` is the one a binary32 number leaves out. -/
theorem mul_two_pow_log2_range {k : Nat} (hk : k ≠ 0) (he : k.log2 < 24) :
    2 ^ 23 ≤ k * 2 ^ (23 - k.log2) ∧ k * 2 ^ (23 - k.log2) < 2 ^ 24 := by
  have hleading : 2 ^ k.log2 * 2 ^ (23 - k.log2) = 2 ^ 23 := by
    rw [← pow_add, Nat.add_sub_cancel' (by omega)]
  constructor
  · rw [← hleading]
    exact Nat.mul_le_mul_right _ (Nat.log2_self_le hk)
  · calc k * 2 ^ (23 - k.log2) < 2 ^ (k.log2 + 1) * 2 ^ (23 - k.log2) :=
          Nat.mul_lt_mul_of_pos_right Nat.lt_log2_self (Nat.two_pow_pos _)
      _ = 2 ^ 24 := by rw [← pow_add]; congr 1; omega

/-- The fields of a quotient's pattern: the exponent counts from the leading bit of `k`, the fraction is what follows
that bit. -/
theorem floatPattern_fields {k : Nat} (hk : k ≠ 0) (hlt : k < 2 ^ 24) :
    ∃ e f, e ≤ 23 ∧ f < 2 ^ 23 ∧ (floatPattern k).toNat = (103 + e) * 2 ^ 23 + f ∧
      2 ^ 23 + f = k * 2 ^ (23 - e) := by
  have he : k.log2 < 24 := (Nat.log2_lt hk).mpr hlt
  obtain ⟨hlow, hhigh⟩ := mul_two_pow_log2_range hk he
  have hf : (k - 2 ^ k.log2) * 2 ^ (23 - k.log2) = k * 2 ^ (23 - k.log2) - 2 ^ 23 := by
    rw [Nat.sub_mul, ← pow_add, Nat.add_sub_cancel' (by omega)]
  refine ⟨k.log2, (k - 2 ^ k.log2) * 2 ^ (23 - k.log2), by omega, by omega, ?_, by omega⟩
  rw [floatPattern, if_neg hk, BitVec.toNat_append, ← Nat.shiftLeft_add_eq_or_of_lt (BitVec.isLt _),
    Nat.shiftLeft_eq, BitVec.toNat_ofNat, Nat.mod_eq_of_lt (b := 2 ^ 23) (by omega)]
  simp only [BitVec.toNat_append, BitVec.toNat_ofNat, Nat.zero_mod, Nat.zero_shiftLeft, Nat.zero_or]
  rw [Nat.mod_eq_of_lt (by omega)]

theorem floatPattern_isQuotientPattern {k : Nat} (hlt : k < 2 ^ 24) : IsQuotientPattern (floatPattern k) k := by
  refine ⟨fun hk => by rw [hk, floatPattern_zero], fun hk => ?_⟩
  obtain ⟨e, f, he, hf, hp, hvalue⟩ := floatPattern_fields hk hlt
  have hexp : (floatPattern k).toNat / 2 ^ 23 = 103 + e := by omega
  have hfrac : (floatPattern k).toNat % 2 ^ 23 = f := by omega
  refine ⟨by omega, by omega, by omega, ?_⟩
  rw [hexp, hfrac, hvalue, mul_assoc, ← pow_add]
  congr 2
  omega

/-- Zero, or a normal number below 1. -/
theorem floatPattern_range {k : Nat} (hlt : k < 2 ^ 24) :
    (floatPattern k).toNat ≤ 0x3F7FFFFF ∧
      ((floatPattern k).toNat = 0 ∨ 0x33800000 ≤ (floatPattern k).toNat) := by
  rcases eq_or_ne k 0 with rfl | hk
  · rw [floatPattern_zero]
    decide
  · obtain ⟨e, f, he, hf, hp, -⟩ := floatPattern_fields hk hlt
    omega

/-- Settles O26: NEXTF's pattern has the fields of a quotient's binary32 form. -/
theorem nextfReturnsTheQuotientPattern : Obligations.NextfReturnsTheQuotientPattern := by
  intro s
  refine ⟨rfl, fun hs => exec_uninitRead rfl hs rfl, fun hs => ?_⟩
  have hk : topNat 24 (lcgNat s.stateReg.toNat) < 2 ^ 24 := topNat_lt (lcgNat_lt _) (by omega)
  refine ⟨_, floatPattern_isQuotientPattern hk, execNextf_eq_next.mpr ⟨hs, ?_⟩⟩
  rw [topBits_canonStep_toNat (by omega), canonStep_eq_ofNat]
  rfl

/-- Settles O27, by the range of the patterns of `k / 2^24`. -/
theorem nextfStaysBelowOne : Obligations.NextfStaysBelowOne := by
  intro s t h
  obtain ⟨-, rfl⟩ := execNextf_eq_next.mp h
  refine ⟨_, rfl, ?_⟩
  rw [zext32, BitVec.toNat_setWidth_of_le (by omega)]
  exact floatPattern_range (topBits_canonStep_lt (by omega) _)

/-! ### the checks of the bound (R123, R124) -/

theorem check_refuses {ok : Bool} {why : Refusal} {rest : Unit → Result} (h : ok = false) :
    check ok why rest = .refused why :=
  check_eq_refused.mpr (.inl ⟨h, rfl⟩)

section
variable {bound : W32} {j : Nat}

theorem isPow2_of_toNat_eq (hj : j ≤ 30) (hb : bound.toNat = 2 ^ j) : bound.isPow2 = true :=
  List.any_eq_true.mpr ⟨j, List.mem_range.mpr (by omega), beq_iff_eq.mpr hb⟩

/-- The bit trick of R123 admits no positive bound but a power of two. -/
theorem toNat_eq_two_pow_of_boundPowerOfTwo (hpos : 0 < bound.toInt) (h : boundPowerOfTwo bound = true) :
    ∃ j, j ≤ 30 ∧ bound.toNat = 2 ^ j := by
  obtain ⟨-, h0, hlt⟩ := toNat_of_positive hpos
  have hone : (1 : W32) ≤ bound := BitVec.le_def.mpr h0
  have hand : bound.toNat &&& (bound.toNat - 1) = 0 := by
    have hand := congrArg BitVec.toNat (beq_iff_eq.mp h)
    rwa [BitVec.toNat_and, BitVec.toNat_sub_of_le hone] at hand
  obtain ⟨j, hj⟩ := (Nat.and_sub_one_eq_zero_iff_isPowerOfTwo h0.ne').mp hand
  rw [hj] at hlt
  exact ⟨j, Nat.le_of_lt_succ ((Nat.pow_lt_pow_iff_right one_lt_two).mp hlt), hj⟩

theorem boundPositive_eq_false (h : bound.toInt ≤ 0) : boundPositive bound = false := decide_eq_false (by omega)

theorem exec_nextip_not_positive (h : bound.toInt ≤ 0) : exec (.nextip bound) s = .refused .boundNotPositive := by
  rw [exec, execNextip, check_refuses (boundPositive_eq_false h)]

theorem exec_nextip_not_powerOfTwo (hpos : 0 < bound.toInt) (h : ¬ ∃ j, j ≤ 30 ∧ bound.toNat = 2 ^ j) :
    exec (.nextip bound) s = .refused .boundNotPowerOfTwo := by
  have hpow : boundPowerOfTwo bound = false :=
    Bool.eq_false_iff.mpr (mt (toNat_eq_two_pow_of_boundPowerOfTwo hpos) h)
  rw [exec, execNextip, check_pass (boundPositive_iff.mpr hpos), check_refuses hpow]

end

/-! ### the scaled draw of NEXTIP (R123) -/

section
variable {bound bits : W32}

/-- A draw below `2^31` is scaled to below the bound. -/
theorem scaled_lt {b x : Nat} (hb : 0 < b) (hx : x < 2 ^ 31) : b * x / 2 ^ 31 < b :=
  Nat.div_lt_of_lt_mul (by rw [mul_comm]; exact Nat.mul_lt_mul_of_pos_right hx hb)

/-- Neither the product nor the shifted number reaches a sign bit. -/
theorem scaledDraw_toNat (hpos : 0 < bound.toInt) (hbits : bits.toNat < 2 ^ 31) :
    (scaledDraw bound bits).toNat = bound.toNat * bits.toNat / 2 ^ 31 := by
  obtain ⟨-, h0, hlt⟩ := toNat_of_positive hpos
  have hprod : bound.toNat * bits.toNat < 2 ^ 31 * 2 ^ 31 := Nat.mul_lt_mul'' hlt hbits
  have hscaled := scaled_lt h0 hbits
  have hnat : (BitVec.ofNat 64 (bound.toNat * bits.toNat)).toNat = bound.toNat * bits.toNat := by
    rw [BitVec.toNat_ofNat, Nat.mod_eq_of_lt (by omega)]
  have hmsb : (BitVec.ofNat 64 (bound.toNat * bits.toNat)).msb = false :=
    BitVec.msb_eq_false_iff_two_mul_lt.mpr (by omega)
  rw [scaledDraw, sext32_eq_ofNat hlt, sext32_eq_ofNat hbits, ← BitVec.ofNat_mul, trunc32, BitVec.toNat_setWidth,
    BitVec.toNat_sshiftRight_of_msb_false hmsb, hnat, Nat.shiftRight_eq_div_pow, Nat.mod_eq_of_lt (by omega)]

theorem scaledDraw_lt (hpos : 0 < bound.toInt) (hbits : bits.toNat < 2 ^ 31) :
    (scaledDraw bound bits).toNat < bound.toNat := by
  obtain ⟨-, h0, -⟩ := toNat_of_positive hpos
  rw [scaledDraw_toNat hpos hbits]
  exact scaled_lt h0 hbits

theorem exec_nextip_of_readable {j : Nat} (hj : j ≤ 30) (hb : bound.toNat = 2 ^ j) (hs : s.phase ≠ .uninitialized) :
    exec (.nextip bound) s = .next ((s.advanceTo (BitVec.ofNat 64 (lcgNat s.stateReg.toNat))).respond
      (.res0 (BitVec.ofNat 64 (bound.toNat * topNat 31 (lcgNat s.stateReg.toNat) / 2 ^ 31)))) := by
  obtain ⟨hchecked, hpow⟩ := bound_checks_of_isPow2 (isPow2_of_toNat_eq hj hb)
  have hpos := boundPositive_iff.mp hchecked
  obtain ⟨-, -, hlt⟩ := toNat_of_positive hpos
  have hbits := topBits_canonStep_lt (n := 31) (by omega) s.stateReg
  refine execNextip_eq_next.mpr ⟨hpos, hpow, hs, ?_⟩
  rw [sext32_eq_ofNat ((scaledDraw_lt hpos hbits).trans hlt), scaledDraw_toNat hpos hbits,
    topBits_canonStep_toNat (by omega), canonStep_eq_ofNat]

end

/-- Settles O28, by the outcomes of the three checks and the scaled draw as a quotient. -/
theorem nextipScalesTheTopBits : Obligations.NextipScalesTheTopBits :=
  fun _ _ => ⟨rfl, exec_nextip_not_positive, exec_nextip_not_powerOfTwo,
    fun _ hj hb hs => exec_uninitRead rfl hs (isPow2_of_toNat_eq hj hb),
    fun _ hj hb hs => exec_nextip_of_readable hj hb hs⟩

/-! ### the acceptance test of NEXTI (R125) -/

/-- The bound's block that contains `x` lies wholly below `2^31` when `x` lies below the last whole multiple. -/
theorem acceptedNat_iff_lt {x b : Nat} (hb : 0 < b) : AcceptedNat x b ↔ x < 2 ^ 31 / b * b := by
  have hblock : AcceptedNat x b ↔ (x / b + 1) * b ≤ 2 ^ 31 := by
    rw [AcceptedNat, ← Nat.div_mul_self_eq_mod_sub_self, add_mul]
    omega
  calc AcceptedNat x b ↔ (x / b + 1) * b ≤ 2 ^ 31 := hblock
    _ ↔ x / b + 1 ≤ 2 ^ 31 / b := (Nat.le_div_iff_mul_le hb).symm
    _ ↔ x < 2 ^ 31 / b * b := Nat.div_lt_iff_lt_mul hb

section
variable {bits bound : W32}

/-- None of the three 32-bit operations of R124 wraps. -/
theorem drawTest_toNat (hbits : bits.toNat < 2 ^ 31) (hpos : 0 < bound.toInt) :
    (drawTest bits (bits % bound) bound).toNat =
      bits.toNat - bits.toNat % bound.toNat + (bound.toNat - 1) := by
  obtain ⟨-, h0, hlt⟩ := toNat_of_positive hpos
  have hval : bits % bound ≤ bits := by
    rw [BitVec.le_def, BitVec.toNat_umod]
    exact Nat.mod_le ..
  have hdiff : (bits - bits % bound).toNat = bits.toNat - bits.toNat % bound.toNat := by
    rw [BitVec.toNat_sub_of_le hval, BitVec.toNat_umod]
  have hpred : (bound - 1).toNat = bound.toNat - 1 := BitVec.toNat_sub_of_le (BitVec.le_def.mpr h0)
  rw [drawTest, BitVec.toNat_add_of_lt (by omega), hdiff, hpred]

theorem drawAccepted_iff (hbits : bits.toNat < 2 ^ 31) (hpos : 0 < bound.toInt) :
    drawAccepted bits (bits % bound) bound = true ↔ AcceptedNat bits.toNat bound.toNat := by
  rw [AcceptedNat, ← drawTest_toNat hbits hpos, drawAccepted, decide_eq_true_iff, BitVec.toInt_eq_toNat_cond]
  have hlt := (drawTest bits (bits % bound) bound).isLt
  split <;> omega

theorem drawAccepted_eq_false_iff (hbits : bits.toNat < 2 ^ 31) (hpos : 0 < bound.toInt) :
    drawAccepted bits (bits % bound) bound = false ↔ ¬ AcceptedNat bits.toNat bound.toNat := by
  rw [← drawAccepted_iff hbits hpos, Bool.not_eq_true]

theorem drawAccepted_eq_false_iff_le (hbits : bits.toNat < 2 ^ 31) (hpos : 0 < bound.toInt) :
    drawAccepted bits (bits % bound) bound = false ↔ 2 ^ 31 / bound.toNat * bound.toNat ≤ bits.toNat := by
  obtain ⟨-, h0, -⟩ := toNat_of_positive hpos
  rw [drawAccepted_eq_false_iff hbits hpos, acceptedNat_iff_lt h0, Nat.not_lt]

end

/-- Settles O31: the 32-bit sum is the exact one, and the last whole multiple of the bound ends the accepted blocks. -/
theorem acceptanceTestIsTheIntegerCondition : Obligations.AcceptanceTestIsTheIntegerCondition := by
  intro bits bound hbits hpos
  obtain ⟨-, h0, hlt⟩ := toNat_of_positive hpos
  have hrejected := drawAccepted_eq_false_iff hbits hpos
  rw [AcceptedNat, Nat.not_lt] at hrejected
  refine ⟨by omega, drawTest_toNat hbits hpos, hrejected, ?_, drawAccepted_eq_false_iff_le hbits hpos⟩
  rw [hrejected]
  omega

/-- Settles O32: the rejected draws are those from the last whole multiple of the bound on. -/
theorem rejectedDrawsCountIsRemainder : Obligations.RejectedDrawsCountIsRemainder := by
  intro bound hpos
  have hrejected : ((Finset.range (2 ^ 31)).filter fun b =>
      drawAccepted (BitVec.ofNat 32 b) (BitVec.ofNat 32 b % bound) bound = false) =
        Finset.Ico (2 ^ 31 / bound.toNat * bound.toNat) (2 ^ 31) := by
    ext b
    rw [Finset.mem_filter, Finset.mem_range, Finset.mem_Ico, and_comm]
    refine and_congr_left fun hb => ?_
    have hnat : (BitVec.ofNat 32 b).toNat = b := by rw [BitVec.toNat_ofNat, Nat.mod_eq_of_lt (by omega)]
    rw [drawAccepted_eq_false_iff_le (hnat.trans_lt hb) hpos, hnat]
  rw [hrejected, Nat.card_Ico, Nat.div_mul_self_eq_mod_sub_self, Nat.sub_sub_self (Nat.mod_le ..)]

/-! ### the loop of NEXTI (R124, R126) -/

section
variable {bound : W32} {g k m : Nat}

theorem draw31_toNat (hk : k ≠ 0) : (draw31 g k).toNat = topNat 31 (lcgIter k g) :=
  ofNat_topNat_toNat (by omega) (lcgIter_lt hk)

theorem draw31_lt (hk : k ≠ 0) : (draw31 g k).toNat < 2 ^ 31 := by
  rw [draw31_toNat hk]
  exact topNat_lt (lcgIter_lt hk) (by omega)

theorem accepts_draw31_iff (hpos : 0 < bound.toInt) (hk : k ≠ 0) :
    accepts bound (draw31 g k) = true ↔ AcceptedNat (topNat 31 (lcgIter k g)) bound.toNat := by
  rw [accepts, drawAccepted_iff (draw31_lt hk) hpos, draw31_toNat hk]

/-- Some draw of a period is 0, which is accepted: a longer run of rejected draws cannot be. -/
theorem rejected_lt_period (hpos : 0 < bound.toInt)
    (hrej : ∀ j, j < m → ¬ AcceptedNat (topNat 31 (lcgIter (j + 1) g)) bound.toNat) : m < 2 ^ 48 := by
  obtain ⟨-, -, hlt⟩ := toNat_of_positive hpos
  obtain ⟨n, hn, hzero⟩ := some_draw_is_zero g
  by_contra hm
  refine hrej n (by omega) ?_
  rw [hzero, AcceptedNat]
  omega

theorem remainder_lt (hpos : 0 < bound.toInt) (bits : W32) : (bits % bound).toNat < bound.toNat := by
  obtain ⟨-, h0, -⟩ := toNat_of_positive hpos
  rw [BitVec.toNat_umod]
  exact Nat.mod_lt _ h0

theorem exec_nexti_not_positive (h : bound.toInt ≤ 0) : exec (.nexti bound) s = .refused .boundNotPositive := by
  rw [exec, execNexti, check_refuses (boundPositive_eq_false h)]

theorem exec_nexti_of_accepted (hpos : 0 < bound.toInt) (hs : s.phase ≠ .uninitialized)
    (hrej : ∀ j, j < m → ¬ AcceptedNat (topNat 31 (lcgIter (j + 1) s.stateReg.toNat)) bound.toNat)
    (hacc : AcceptedNat (topNat 31 (lcgIter (m + 1) s.stateReg.toNat)) bound.toNat) :
    exec (.nexti bound) s = .next ((s.advanceTo (BitVec.ofNat 64 (lcgIter (m + 1) s.stateReg.toNat))).respond
      (.res0 (BitVec.ofNat 64 (topNat 31 (lcgIter (m + 1) s.stateReg.toNat) % bound.toNat)))) := by
  obtain ⟨-, -, hlt⟩ := toNat_of_positive hpos
  have hrejected : ∀ j, j < m → accepts bound (draw31 s.stateReg.toNat (j + 1)) = false := fun j hj =>
    Bool.eq_false_iff.mpr (mt (accepts_draw31_iff hpos j.succ_ne_zero).mp (hrej j hj))
  have hloop := drawUntilAccepted_eq_some_iff.mpr
    ⟨m, rejected_lt_period hpos hrej, hrejected, (accepts_draw31_iff hpos m.succ_ne_zero).mpr hacc, rfl⟩
  refine execNexti_eq_next.mpr ⟨hpos, hs, _, hloop, ?_⟩
  rw [sext32_eq_ofNat ((remainder_lt hpos _).trans hlt), BitVec.toNat_umod, draw31_toNat m.succ_ne_zero]

end

/-- Settles O29: a first accepted draw lies within the fuel, so the loop ends with it. -/
theorem nextiReturnsTheFirstAcceptedDraw : Obligations.NextiReturnsTheFirstAcceptedDraw :=
  fun _ _ => ⟨rfl, exec_nexti_not_positive, fun hpos hs => exec_uninitRead rfl hs (decide_eq_true hpos),
    fun _ => exec_nexti_of_accepted⟩

/-! ### both bounded draws (R127, R128) -/

/-- Settles O33: the scaled draw and the remainder both lie below the bound. -/
theorem boundedDrawsStayInRange : Obligations.BoundedDrawsStayInRange := by
  rintro bound i s t (rfl | rfl) h
  · obtain ⟨hpos, -, -, rfl⟩ := execNextip_eq_next.mp h
    exact ⟨_, rfl, sext32_mem_range hpos (scaledDraw_lt hpos (topBits_canonStep_lt (by omega) _))⟩
  · obtain ⟨hpos, -, d, hd, rfl⟩ := execNexti_eq_next.mp h
    obtain ⟨m, -, -, -, rfl⟩ := drawUntilAccepted_eq_some_iff.mp hd
    exact ⟨_, rfl, sext32_mem_range hpos (remainder_lt hpos _)⟩

/-- A power of two divides `2^31`, so that no draw is rejected. -/
theorem acceptedNat_two_pow {x j : Nat} (hj : j ≤ 30) (hx : x < 2 ^ 31) : AcceptedNat x (2 ^ j) := by
  rw [acceptedNat_iff_lt (Nat.two_pow_pos j), Nat.div_mul_cancel (pow_dvd_pow 2 (by omega))]
  exact hx

/-- Scaling by `2^j` keeps the top `j` of 31 bits. -/
theorem two_pow_mul_div {j : Nat} (hj : j ≤ 30) (x : Nat) : 2 ^ j * x / 2 ^ 31 = x / 2 ^ (31 - j) := by
  have hsplit : 2 ^ 31 = 2 ^ j * 2 ^ (31 - j) := by rw [← pow_add, Nat.add_sub_cancel' (by omega)]
  rw [hsplit, Nat.mul_div_mul_left _ _ (Nat.two_pow_pos j)]

/-- Settles O34: both paths take the first draw; scaling it keeps its top bits and the remainder its bottom bits. -/
theorem boundedDrawPathsOnPowersOfTwo : Obligations.BoundedDrawPathsOnPowersOfTwo := by
  intro j bound s hj hb hs
  obtain ⟨hchecked, -⟩ := bound_checks_of_isPow2 (isPow2_of_toNat_eq hj hb)
  have hbits : topNat 31 (lcgIter 1 s.stateReg.toNat) < 2 ^ 31 :=
    topNat_lt (lcgIter_lt one_ne_zero) (by omega)
  have hip := exec_nextip_of_readable hj hb hs
  have hi := exec_nexti_of_accepted (m := 0) (boundPositive_iff.mp hchecked) hs
    (fun n hn => absurd hn n.not_lt_zero) (hb ▸ acceptedNat_two_pow hj hbits)
  rw [hb, two_pow_mul_div hj] at hip
  rw [hb, zero_add, lcgIter_one] at hi
  refine ⟨_, _, ofNat_lcgNat_toNat _, rfl, ?_⟩
  rw [ofNat_lcgNat_toNat]
  exact ⟨hip, hi⟩

end Sys2Proof.Machine
end

section
/-! SUPPORT. A command's outcome against the table of refusals (R143, R146): it is refused for the table's reason, and
completes where the table has none. -/

namespace Sys2Proof.Machine

variable {s : State} {why : Refusal}

/-! ### an outcome and the reason for it -/

/-- The outcome is the refusal for the reason, or a next state if there is no reason. -/
def MeetsReason (o : Result) : Option Refusal → Prop
  | some why => o = .refused why
  | none => ∃ t, o = .next t

section
variable {o : Result} {reason : Option Refusal}

theorem MeetsReason.refused_iff (h : MeetsReason o reason) : o = .refused why ↔ reason = some why := by
  cases reason with
  | some w =>
    obtain rfl : o = .refused w := h
    rw [Host.Outcome.refused.injEq, Option.some.injEq]
  | none =>
    obtain ⟨t, rfl⟩ := h
    exact iff_of_false nofun nofun

theorem MeetsReason.next_iff (h : MeetsReason o reason) : (∃ t, o = .next t) ↔ reason = none := by
  cases reason with
  | some w =>
    obtain rfl : o = .refused w := h
    exact iff_of_false nofun nofun
  | none => exact iff_of_true h rfl

end

/-- A check adds its reason before those of the rest. -/
theorem meetsReason_check {ok : Bool} {rest : Unit → Result} {reason : Option Refusal} {P : Prop} [Decidable P]
    (hP : ok = true ↔ ¬ P) (h : ok = true → MeetsReason (rest ()) reason) :
    MeetsReason (check ok why rest) (if P then some why else reason) := by
  cases hok : ok with
  | true =>
    rw [check_pass rfl, if_neg (hP.mp hok)]
    exact h hok
  | false =>
    have hbreach : P := not_not.mp fun hn => Bool.false_ne_true (hok.symm.trans (hP.mpr hn))
    rw [check_refuses rfl, if_pos hbreach]
    rfl

theorem meetsReason_readingState {rest : Unit → Result}
    (h : s.phase ≠ .uninitialized → ∃ t, rest () = .next t) :
    MeetsReason (readingState s rest) (uninitRefusal s.phase) :=
  meetsReason_check bne_iff_ne fun hs => h (bne_iff_ne.mp hs)

/-! ### the conditions of the checks, as the table writes them -/

theorem bitsInRange_iff_not {hi : Nat} {n : BitCount} :
    bitsInRange hi n = true ↔ ¬ (n.toNat = 0 ∨ hi < n.toNat) := by
  rw [bitsInRange_iff]
  omega

theorem boundPositive_iff_not {bound : W32} : boundPositive bound = true ↔ ¬ bound.toInt ≤ 0 := by
  rw [boundPositive_iff, not_le]

/-- The bit trick of R123 is the test for a power of two. -/
theorem boundPowerOfTwo_iff_isPow2 {bound : W32} (hpos : 0 < bound.toInt) :
    boundPowerOfTwo bound = true ↔ bound.isPow2 = true := by
  refine ⟨fun h => ?_, fun h => (bound_checks_of_isPow2 h).2⟩
  obtain ⟨j, hj, hb⟩ := toNat_eq_two_pow_of_boundPowerOfTwo hpos h
  exact isPow2_of_toNat_eq hj hb

/-- NEXTIP admits positive bounds only. -/
theorem toInt_pos_of_isPow2 {bound : W32} (h : bound.isPow2 = true) : 0 < bound.toInt :=
  boundPositive_iff.mp (bound_checks_of_isPow2 h).1

/-! ### the loop of NEXTI -/

/-- A draw of 0 is accepted, and every period has one (log entry 7). -/
theorem exists_first_accepted {bound : W32} (hpos : 0 < bound.toInt) (g : Nat) :
    ∃ m, (∀ j, j < m → ¬ AcceptedNat (topNat 31 (lcgIter (j + 1) g)) bound.toNat) ∧
      AcceptedNat (topNat 31 (lcgIter (m + 1) g)) bound.toNat := by
  classical
  obtain ⟨-, -, hlt⟩ := toNat_of_positive hpos
  obtain ⟨n, -, hzero⟩ := some_draw_is_zero g
  have hex : ∃ m, AcceptedNat (topNat 31 (lcgIter (m + 1) g)) bound.toNat := by
    refine ⟨n, ?_⟩
    rw [hzero, AcceptedNat]
    omega
  exact ⟨Nat.find hex, fun _ hj => Nat.find_min hex hj, Nat.find_spec hex⟩

theorem exec_nexti_completes {bound : W32} (hpos : 0 < bound.toInt) (hs : s.phase ≠ .uninitialized) :
    ∃ t, exec (.nexti bound) s = .next t := by
  obtain ⟨m, hrej, hacc⟩ := exists_first_accepted hpos s.stateReg.toNat
  exact ⟨_, exec_nexti_of_accepted hpos hs hrej hacc⟩

theorem loopResult_completes {bound : W32} (hpos : 0 < bound.toInt) (hs : s.phase ≠ .uninitialized) :
    ∃ t, loopResult (drawUntilAccepted bound drawFuel s) = .next t := by
  obtain ⟨t, ht⟩ := exec_nexti_completes hpos hs
  obtain ⟨-, -, d, hd, hresp⟩ := execNexti_eq_next.mp ht
  exact ⟨t, loopResult_eq_next.mpr ⟨d, hd, hresp⟩⟩

/-! ### every command -/

/-- STEP.F and STEP.R check their bits and nothing else. -/
theorem stepResponse_meetsReason {bits : BitCount} {newState : Word} :
    MeetsReason (stepResponse bits newState s)
      (if bits.toNat = 0 ∨ 48 < bits.toNat then some .bitsOutOfRange else none) :=
  meetsReason_check (reason := none) bitsInRange_iff_not fun _ => ⟨_, rfl⟩

/-- Each command's checks are the table's reasons, in the table's order, and its last line answers. -/
theorem exec_meetsReason (i : Instr) (s : State) : MeetsReason (exec i s) (Instr.refusalReason s.phase i) := by
  cases i with
  | seed | setst | popseed | decseed => exact ⟨_, rfl⟩
  | getst | nextl | nextf =>
    simp only [exec, execGetst, execNextl, execNextf, Instr.refusalReason]
    exact meetsReason_readingState fun _ => ⟨_, rfl⟩
  | nextb n =>
    rw [exec, execNextb, Instr.refusalReason]
    exact meetsReason_check bitsInRange_iff_not fun _ => meetsReason_readingState fun _ => ⟨_, rfl⟩
  | stepF _ _ _ _ bits => exact stepResponse_meetsReason
  | stepR _ _ _ _ bits => exact stepResponse_meetsReason
  | nextip bound =>
    rw [exec, execNextip, Instr.refusalReason]
    refine meetsReason_check boundPositive_iff_not fun hpos => ?_
    rw [← ite_not]
    refine meetsReason_check ?_ fun _ => meetsReason_readingState fun _ => ⟨_, rfl⟩
    rw [not_not, boundPowerOfTwo_iff_isPow2 (boundPositive_iff.mp hpos)]
  | nexti bound =>
    rw [exec, execNexti, Instr.refusalReason]
    exact meetsReason_check boundPositive_iff_not fun hpos =>
      meetsReason_readingState (loopResult_completes (boundPositive_iff.mp hpos))

theorem exec_eq_refused_iff {i : Instr} : exec i s = .refused why ↔ Instr.refusalReason s.phase i = some why :=
  (exec_meetsReason i s).refused_iff

theorem exec_completes_iff {i : Instr} : (∃ t, exec i s = .next t) ↔ Instr.refusalReason s.phase i = none :=
  (exec_meetsReason i s).next_iff

/-! ### the table of reasons -/

section
variable {p : Phase}

theorem uninitRefusal_eq_none : uninitRefusal p = none ↔ p ≠ .uninitialized := by
  rw [uninitRefusal, ite_eq_right_iff]
  exact forall_congr' fun _ => iff_of_false nofun id

theorem eq_of_uninitRefusal (h : uninitRefusal p = some why) : why = .uninitRead := by
  rw [uninitRefusal, Option.ite_none_right_eq_some] at h
  exact (Option.some.inj h.2).symm

theorem firstReason_eq_none {P : Prop} [Decidable P] {w : Refusal} {reason : Option Refusal} :
    (if P then some w else reason) = none ↔ ¬ P ∧ reason = none := by
  split <;> simp [*]

theorem eq_or_of_firstReason {P : Prop} [Decidable P] {w : Refusal} {reason : Option Refusal}
    (h : (if P then some w else reason) = some why) : why = w ∨ reason = some why := by
  split at h
  · exact .inl (Option.some.inj h).symm
  · exact .inr h

theorem within_iff {hi : Nat} {n : BitCount} :
    n.within 1 hi = true ↔ ¬ (n.toNat = 0 ∨ hi < n.toNat) := by
  rw [← bitsInRange_eq_within, bitsInRange_iff_not]

/-- The table has no reason against a command with admitted operands that reads nothing unwritten. -/
theorem refusalReason_eq_none_iff {i : Instr} : Instr.refusalReason p i = none ↔
    i.operandsAdmitted = true ∧ (Instr.readsState i = true → p ≠ .uninitialized) := by
  cases i with
  | seed | setst | popseed | decseed => exact iff_of_true rfl ⟨rfl, nofun⟩
  | getst | nextl | nextf =>
    simp [Instr.refusalReason, uninitRefusal_eq_none, Instr.operandsAdmitted, Instr.readsState, Instr.isDraw]
  | nextb n =>
    simp [Instr.refusalReason, firstReason_eq_none, uninitRefusal_eq_none, Instr.operandsAdmitted, within_iff,
      Instr.readsState, Instr.isDraw]
  | stepF _ _ _ _ bits | stepR _ _ _ _ bits =>
    simp [Instr.refusalReason, Instr.operandsAdmitted, within_iff,
      Instr.readsState, Instr.isDraw]
  | nextip bound =>
    rw [Instr.refusalReason, firstReason_eq_none, ← ite_not, firstReason_eq_none, uninitRefusal_eq_none, not_le,
      not_not]
    exact ⟨fun ⟨_, hpow, hp⟩ => ⟨hpow, fun _ => hp⟩,
      fun ⟨hpow, hp⟩ => ⟨toInt_pos_of_isPow2 hpow, hpow, hp rfl⟩⟩
  | nexti bound =>
    simp [Instr.refusalReason, firstReason_eq_none, uninitRefusal_eq_none, Instr.operandsAdmitted,
      Instr.readsState, Instr.isDraw]

/-- The reasons of R146 against a command. -/
theorem refusalReason_listed {i : Instr} (h : Instr.refusalReason p i = some why) :
    why = .bitsOutOfRange ∨ why = .boundNotPositive ∨ why = .boundNotPowerOfTwo ∨ why = .uninitRead := by
  cases i with
  | seed | setst | popseed | decseed => cases h
  | getst | nextl | nextf => exact .inr (.inr (.inr (eq_of_uninitRefusal h)))
  | nextb n =>
    obtain hbits | h := eq_or_of_firstReason h
    · exact .inl hbits
    · exact .inr (.inr (.inr (eq_of_uninitRefusal h)))
  | stepF _ _ _ _ bits | stepR _ _ _ _ bits =>
    obtain hbits | h := eq_or_of_firstReason h
    · exact .inl hbits
    · cases h
  | nextip bound =>
    obtain hpos | h := eq_or_of_firstReason h
    · exact .inr (.inl hpos)
    · rw [← ite_not] at h
      obtain hpow | h := eq_or_of_firstReason h
      · exact .inr (.inr (.inl hpow))
      · exact .inr (.inr (.inr (eq_of_uninitRefusal h)))
  | nexti bound =>
    obtain hpos | h := eq_or_of_firstReason h
    · exact .inr (.inl hpos)
    · exact .inr (.inr (.inr (eq_of_uninitRefusal h)))

end

end Sys2Proof.Machine
end

section
/-! The obligations about refusals (60_exceptions.md): which command is refused and why, that nothing else stops one,
and what a refusal leaves of a run. -/

namespace Sys2Proof.Machine

/-! ### commands and steps -/

/-- Settles O37: a command by its outcome against the table, a step by what its request decodes to. -/
theorem refusalsAreExactlyTheTable : Obligations.RefusalsAreExactlyTheTable := by
  refine ⟨fun i s why => exec_eq_refused_iff, fun s r rest why hs => ?_⟩
  cases hd : decode s.params r with
  | error e =>
    rw [step_of_decode_error hs hd]
    simp [eq_comm]
  | ok i =>
    rw [step_of_decode_ok hs hd, exec_eq_refused_iff]
    simp

/-- Settles O38: a command completes where the table has no reason. -/
theorem commandsCompleteExactlyWhenAdmitted : Obligations.CommandsCompleteExactlyWhenAdmitted :=
  fun _ _ => exec_completes_iff.trans refusalReason_eq_none_iff

theorem exec_next_or_listed (i : Instr) (s : State) :
    (∃ t, exec i s = .next t) ∨ ∃ why, exec i s = .refused why ∧
      (why = .bitsOutOfRange ∨ why = .boundNotPositive ∨ why = .boundNotPowerOfTwo ∨ why = .uninitRead) := by
  cases hreason : Instr.refusalReason s.phase i with
  | none => exact .inl (exec_completes_iff.mpr hreason)
  | some why => exact .inr ⟨why, exec_eq_refused_iff.mpr hreason, refusalReason_listed hreason⟩

/-- Settles O39, by the input the step takes. -/
theorem outcomesAreNextStatesOrListedRefusals : Obligations.OutcomesAreNextStatesOrListedRefusals := by
  refine ⟨exec_next_or_listed, fun s => ?_⟩
  rcases hs : s.inputs with _ | ⟨r | _, rest⟩
  · exact .inl ⟨s, step_of_no_input hs⟩
  · cases hd : decode s.params r with
    | error e => exact .inr ⟨_, step_of_decode_error hs hd, .inl rfl⟩
    | ok i =>
      rw [step_of_decode_ok hs hd]
      exact (exec_next_or_listed i _).imp_right fun ⟨why, he, hlisted⟩ => ⟨why, he, .inr hlisted⟩
  · exact .inl ⟨_, step_of_reset hs⟩

/-! ### the mark of a run -/

section
variable {r : Run}

theorem advance_of_next {t : State} (h : step r.state = .next t) : r.advance = { r with state := t } := by
  simp only [Run.advance, h]

theorem marked_advance_of_refused {why : Refusal} (h : step r.state = .refused why) : r.advance.marked = true := by
  rw [advance_of_refused h]
  simp [Run.marked]

theorem marked_advance (h : r.marked = true) : r.advance.marked = true := by
  cases hstep : step r.state with
  | next t =>
    rw [advance_of_next hstep]
    exact h
  | refused why => exact marked_advance_of_refused hstep
  | fault f => nomatch f

theorem marked_advances (k : Nat) (h : r.marked = true) : (Run.advances k r).marked = true := by
  induction k generalizing r with
  | zero => exact h
  | succ k ih => exact ih (marked_advance h)

end

/-- Settles O46: the first further input marks the run or finds it marked, and no input takes the mark away. -/
theorem refusedCommandChangesNothingAndMarks : Obligations.RefusedCommandChangesNothingAndMarks :=
  fun _ _ => ⟨advance_of_refused, fun k h =>
    marked_advances k (h.elim marked_advance_of_refused marked_advance)⟩

end Sys2Proof.Machine
end

section
/-! The obligations about reset (70_reset_and_hazards.md): what a reset input does, and that the two invariants of
`STATE` hold right after reset. -/

namespace Sys2Proof.Machine

/-- Settles O4: the unspecified `STATE` is the free value that the reset takes. -/
theorem resetInputUninitializes : Obligations.ResetInputUninitializes :=
  fun s _ hs => ⟨Config.unspecifiedState s.freeCount, step_of_reset hs⟩

/-! ### invariants right after reset -/

theorem powerOn_phase_ne_advanced (p : Params) : (State.powerOn p).phase ≠ .advanced := by
  rw [powerOn_phase]
  decide

/-- Settles O48: a reset instance is not in `Advanced`, so its `STATE` is not looked at. -/
theorem resetIsAdvancedMasked : Obligations.ResetIsAdvancedMasked :=
  fun p hadv => absurd hadv (powerOn_phase_ne_advanced p)

/-- Settles O50: nothing is readable on a reset instance, and the program is masked by hypothesis. -/
theorem resetIsMaskedRun : Obligations.ResetIsMaskedRun :=
  fun p _ hmasked => ⟨fun hreadable => absurd (powerOn_phase p) hreadable, hmasked⟩

end Sys2Proof.Machine
end

section
/-! The obligations about two entries of the log: a step with no input changes nothing (4), and the fuel of NEXTI's loop
is no cap (7). -/

namespace Sys2Proof.Machine

/-- Settles O3: with no input there is nothing to take. -/
theorem stepWithoutInputChangesNothing : Obligations.StepWithoutInputChangesNothing :=
  fun _ => step_of_no_input

/-- A draw of 0 is never rejected: the bound's first block lies below `2^31`. -/
theorem acceptedNat_zero {bound : W32} (hpos : 0 < bound.toInt) : AcceptedNat 0 bound.toNat := by
  obtain ⟨-, -, hlt⟩ := toNat_of_positive hpos
  rw [AcceptedNat]
  omega

/-- Settles O30: the draw of 0 that every period holds is accepted, so the loop ends with it or before it. -/
theorem nextiAlwaysEnds : Obligations.NextiAlwaysEnds := by
  intro bound s hpos hs
  obtain ⟨m, hm, hzero⟩ := some_draw_is_zero s.stateReg.toNat
  obtain ⟨t, ht⟩ := exec_nexti_completes hpos hs
  have hacc : AcceptedNat (topNat 31 (lcgIter (m + 1) s.stateReg.toNat)) bound.toNat := by
    rw [hzero]
    exact acceptedNat_zero hpos
  exact ⟨m, t, hm, hacc, ht⟩

end Sys2Proof.Machine
end
